-- ==== Sys2Proof/Word.lean ====
section
/-! DEFINITION. The widths of 00_scope.md R4, and the fields of an instruction word (30_encoding.md R51). -/

namespace Sys2Proof

/-- A memory cell, a V register, a timer (10_state.md R11, R12, R17). -/
abbrev Byte := BitVec 8

/-- An instruction word, or the index register (30_encoding.md R50, 10_state.md R14). -/
abbrev Word := BitVec 16

/-- A 12-bit address: `pc`, a stack entry, the field `nnn` (10_state.md R15, R16). -/
abbrev Addr := BitVec 12

/-- The number of a V register, 0 to 15 (30_encoding.md R51). -/
abbrev RegNo := BitVec 4

/-- A 4-bit field that is no register number: the row count `n`, or an ignored nibble. -/
abbrev Nibble := BitVec 4

/-- VF, which is `V[15]` (10_state.md R12, R13). -/
abbrev VF : RegNo := 0xF#4

/-- The 2048 pixels of the framebuffer, pixel (x, y) at index `x + 64 * y` (10_state.md R19). -/
abbrev Pixels := Vector Bool 2048

end Sys2Proof
end

