-- ==== Sys2Proof/Syntax.lean ====
section
/-! DEFINITION. The instructions: one constructor per row of spec/opcode_table.json (30_encoding.md R54). -/

namespace Sys2Proof

/-- An instruction with its fields. Every bit of its word is either fixed by its row or a field here: the fields that the
machine ignores (the low nibble of 5xy_ and 9xy_, R59, and `y` of SHR and SHL, R98 and R100) are kept too, so that an
instruction names exactly one word. -/
inductive Instr where
  /-- 00E0, clear the screen (R120). -/
  | cls
  /-- 00EE, return from a subroutine (R80). -/
  | ret
  /-- 1nnn, `JP addr` (R81). -/
  | jp (nnn : Addr)
  /-- 2nnn, `CALL addr` (R82). -/
  | call (nnn : Addr)
  /-- 3xkk, `SE Vx,byte` (R83). -/
  | seByte (x : RegNo) (kk : Byte)
  /-- 4xkk, `SNE Vx,byte` (R84). -/
  | sneByte (x : RegNo) (kk : Byte)
  /-- 5xy_, `SE Vx,Vy` (R85); `ign` is the ignored low nibble (R59). -/
  | seReg (x y : RegNo) (ign : Nibble)
  /-- 6xkk, `LD Vx,byte` (R90). -/
  | ldByte (x : RegNo) (kk : Byte)
  /-- 7xkk, `ADD Vx,byte` (R92). -/
  | addByte (x : RegNo) (kk : Byte)
  /-- 8xy0, `LD Vx,Vy` (R93). -/
  | ldReg (x y : RegNo)
  /-- 8xy1, `OR Vx,Vy` (R94). -/
  | or (x y : RegNo)
  /-- 8xy2, `AND Vx,Vy` (R95). -/
  | and (x y : RegNo)
  /-- 8xy3, `XOR Vx,Vy` (R101). -/
  | xor (x y : RegNo)
  /-- 8xy4, `ADD Vx,Vy` (R96). -/
  | addReg (x y : RegNo)
  /-- 8xy5, `SUB Vx,Vy` (R97). -/
  | sub (x y : RegNo)
  /-- 8xy6, `SHR Vx` (R98); `y` is ignored. -/
  | shr (x y : RegNo)
  /-- 8xy7, `SUBN Vx,Vy` (R99). -/
  | subn (x y : RegNo)
  /-- 8xyE, `SHL Vx` (R100); `y` is ignored. -/
  | shl (x y : RegNo)
  /-- 9xy_, `SNE Vx,Vy` (R86); `ign` is the ignored low nibble (R59). -/
  | sneReg (x y : RegNo) (ign : Nibble)
  /-- Annn, `LD I,addr` (R110). -/
  | ldI (nnn : Addr)
  /-- Cxkk, `RND Vx,byte` (R103). -/
  | rnd (x : RegNo) (kk : Byte)
  /-- Dxyn, `DRW Vx,Vy,n` (R121). -/
  | drw (x y : RegNo) (n : Nibble)
  /-- Ex9E, `SKP Vx` (R130). -/
  | skp (x : RegNo)
  /-- ExA1, `SKNP Vx` (R131). -/
  | sknp (x : RegNo)
  /-- Fx07, `LD Vx,DT` (R140). -/
  | ldFromDt (x : RegNo)
  /-- Fx0A, `LD Vx,K` (R132). -/
  | ldKey (x : RegNo)
  /-- Fx15, `LD DT,Vx` (R141). -/
  | ldDt (x : RegNo)
  /-- Fx18, `LD ST,Vx` (R142). -/
  | ldSt (x : RegNo)
  /-- Fx1E, `ADD I,Vx` (R111). -/
  | addI (x : RegNo)
  /-- Fx29, `LD F,Vx` (R112). -/
  | ldF (x : RegNo)
  /-- Fx33, `LD B,Vx` (R113). -/
  | ldB (x : RegNo)
  /-- Fx55, `LD [I],Vx` (R114). -/
  | storeRegs (x : RegNo)
  /-- Fx65, `LD Vx,[I]` (R115). -/
  | loadRegs (x : RegNo)
  /-- 0nnn but 00E0 and 00EE, `SYS addr`, an Unknown word (R151). -/
  | sysAddr (nnn : Addr)
  /-- Bnnn, `JP V0,addr`, an Unknown word (R152). -/
  | jpV0 (nnn : Addr)
  /-- Every other word: Unknown(w) (R150, R60). -/
  | unknown (w : Word)
  deriving DecidableEq, Repr

end Sys2Proof
end

