-- ==== Sys2Proof/WellFormed.lean ====
section
/-! DEFINITION. Which terms of `Instr` are instructions of the machine. The types bound every field but two: `SYS addr`
is not 00E0 or 00EE (R55), and `Unknown(w)` is a word that no other row takes (R60). -/

namespace Sys2Proof

/-- The secondary keys of family 8 that are no instruction (30_encoding.md R56). -/
def unassignedKeys8 : List Nibble := [0x8, 0x9, 0xA, 0xB, 0xC, 0xD, 0xF]

/-- The secondary keys of family E that are instructions (30_encoding.md R57). -/
def keysE : List Byte := [0x9E, 0xA1]

/-- The secondary keys of family F that are instructions (30_encoding.md R58). -/
def keysF : List Byte := [0x07, 0x0A, 0x15, 0x18, 0x1E, 0x29, 0x33, 0x55, 0x65]

/-- The unassigned words of families 8, E and F: the rows of the table of 30_encoding.md R60 that the standard set
has no name for. -/
def unassignedWord (w : Word) : Bool :=
  let op := w.extractLsb' 12 4
  let n := w.extractLsb' 0 4
  let kk := w.extractLsb' 0 8
  (op == 0x8#4 && unassignedKeys8.contains n) || (op == 0xE#4 && !keysE.contains kk) ||
    (op == 0xF#4 && !keysF.contains kk)

/-- An instruction of the machine: the one row whose word it would be is its own. -/
def Instr.wf : Instr → Bool
  | .sysAddr nnn => nnn != 0x0E0#12 && nnn != 0x0EE#12
  | .unknown w => unassignedWord w
  | .cls | .ret | .jp _ | .call _ | .seByte _ _ | .sneByte _ _ | .seReg _ _ _ | .ldByte _ _ | .addByte _ _
  | .ldReg _ _ | .or _ _ | .and _ _ | .xor _ _ | .addReg _ _ | .sub _ _ | .shr _ _ | .subn _ _ | .shl _ _
  | .sneReg _ _ _ | .ldI _ | .rnd _ _ | .drw _ _ _ | .skp _ | .sknp _ | .ldFromDt _ | .ldKey _ | .ldDt _
  | .ldSt _ | .addI _ | .ldF _ | .ldB _ | .storeRegs _ | .loadRegs _ | .jpV0 _ => true

end Sys2Proof
end

