-- ==== Sys2Proof/Decode.lean ====
section
/-! DEFINITION. The decoder (30_encoding.md R53, total on all words), its form over bytes (R34, R50), and the encoder,
written from the same rows (R54). -/

namespace Sys2Proof

/-- Bits 15:12, the family (30_encoding.md R51). -/
def fieldOp (w : Word) : Nibble := w.extractLsb' 12 4

/-- Bits 11:8, the first register number (R51). -/
def fieldX (w : Word) : RegNo := w.extractLsb' 8 4

/-- Bits 7:4, the second register number (R51). -/
def fieldY (w : Word) : RegNo := w.extractLsb' 4 4

/-- Bits 3:0, the row count or the secondary key of family 8 (R51). -/
def fieldN (w : Word) : Nibble := w.extractLsb' 0 4

/-- Bits 7:0, the 8-bit immediate or the secondary key of families E and F (R51). -/
def fieldKK (w : Word) : Byte := w.extractLsb' 0 8

/-- Bits 11:0, the 12-bit address (R51). -/
def fieldNNN (w : Word) : Addr := w.extractLsb' 0 12

/-- Family 0: only two whole words are instructions (R55); the rest is `SYS addr`, an Unknown word (R151). -/
def decodeFamily0 (w : Word) : Instr :=
  if w = 0x00E0#16 then .cls
  else if w = 0x00EE#16 then .ret
  else .sysAddr (fieldNNN w)

/-- Family 8: the secondary key is the low nibble (R56). -/
def decodeFamily8 (w : Word) : Instr :=
  if fieldN w = 0x0#4 then .ldReg (fieldX w) (fieldY w)
  else if fieldN w = 0x1#4 then .or (fieldX w) (fieldY w)
  else if fieldN w = 0x2#4 then .and (fieldX w) (fieldY w)
  else if fieldN w = 0x3#4 then .xor (fieldX w) (fieldY w)
  else if fieldN w = 0x4#4 then .addReg (fieldX w) (fieldY w)
  else if fieldN w = 0x5#4 then .sub (fieldX w) (fieldY w)
  else if fieldN w = 0x6#4 then .shr (fieldX w) (fieldY w)
  else if fieldN w = 0x7#4 then .subn (fieldX w) (fieldY w)
  else if fieldN w = 0xE#4 then .shl (fieldX w) (fieldY w)
  else .unknown w

/-- Family E: the secondary key is the low byte (R57). -/
def decodeFamilyE (w : Word) : Instr :=
  if fieldKK w = 0x9E#8 then .skp (fieldX w)
  else if fieldKK w = 0xA1#8 then .sknp (fieldX w)
  else .unknown w

/-- Family F: the secondary key is the low byte (R58). -/
def decodeFamilyF (w : Word) : Instr :=
  if fieldKK w = 0x07#8 then .ldFromDt (fieldX w)
  else if fieldKK w = 0x0A#8 then .ldKey (fieldX w)
  else if fieldKK w = 0x15#8 then .ldDt (fieldX w)
  else if fieldKK w = 0x18#8 then .ldSt (fieldX w)
  else if fieldKK w = 0x1E#8 then .addI (fieldX w)
  else if fieldKK w = 0x29#8 then .ldF (fieldX w)
  else if fieldKK w = 0x33#8 then .ldB (fieldX w)
  else if fieldKK w = 0x55#8 then .storeRegs (fieldX w)
  else if fieldKK w = 0x65#8 then .loadRegs (fieldX w)
  else .unknown w

/-- `decode(w)` of 30_encoding.md R53: dispatch on the top nibble, then in families 0, 8, E and F on a secondary key.
Families 5 and 9 take any low nibble (R59); family B is `JP V0,addr`, an Unknown word (R152). -/
def decodeWord (w : Word) : Instr :=
  if fieldOp w = 0x0#4 then decodeFamily0 w
  else if fieldOp w = 0x1#4 then .jp (fieldNNN w)
  else if fieldOp w = 0x2#4 then .call (fieldNNN w)
  else if fieldOp w = 0x3#4 then .seByte (fieldX w) (fieldKK w)
  else if fieldOp w = 0x4#4 then .sneByte (fieldX w) (fieldKK w)
  else if fieldOp w = 0x5#4 then .seReg (fieldX w) (fieldY w) (fieldN w)
  else if fieldOp w = 0x6#4 then .ldByte (fieldX w) (fieldKK w)
  else if fieldOp w = 0x7#4 then .addByte (fieldX w) (fieldKK w)
  else if fieldOp w = 0x8#4 then decodeFamily8 w
  else if fieldOp w = 0x9#4 then .sneReg (fieldX w) (fieldY w) (fieldN w)
  else if fieldOp w = 0xA#4 then .ldI (fieldNNN w)
  else if fieldOp w = 0xB#4 then .jpV0 (fieldNNN w)
  else if fieldOp w = 0xC#4 then .rnd (fieldX w) (fieldKK w)
  else if fieldOp w = 0xD#4 then .drw (fieldX w) (fieldY w) (fieldN w)
  else if fieldOp w = 0xE#4 then decodeFamilyE w
  else decodeFamilyF w

/-- Two bytes as an instruction word, the byte at the lower address high (20_memory.md R34). -/
def wordOfBytes (hi lo : Byte) : Word := hi ++ lo

/-- The high byte of a word, which stands at the lower address (30_encoding.md R50). -/
def highByte (w : Word) : Byte := w.extractLsb' 8 8

/-- The low byte of a word, which stands at the higher address (30_encoding.md R50). -/
def lowByte (w : Word) : Byte := w.extractLsb' 0 8

/-- Why a list of bytes holds no instruction. No word is rejected (R53); only a list that ends too soon is, which is the
model's own form (DESIGN CHOICE, log 10): the spec's `decode` takes a whole word. -/
inductive DecodeError where
  /-- Fewer than two bytes: `n` of them. -/
  | truncated (n : Nat)
  deriving DecidableEq, Repr

/-- Read one instruction from a list of bytes, and give the bytes after it. -/
def decode : List Byte → Except DecodeError (Instr × List Byte)
  | [] => .error (.truncated 0)
  | [_] => .error (.truncated 1)
  | hi :: lo :: rest => .ok (decodeWord (wordOfBytes hi lo), rest)

/-- A word with the fields of format NNN (30_encoding.md R52). -/
def packNNN (op : Nibble) (nnn : Addr) : Word := op ++ nnn

/-- A word with the fields of format XKK, and of format X with its secondary key (R52). -/
def packXKK (op : Nibble) (x : RegNo) (kk : Byte) : Word := (op ++ x) ++ kk

/-- A word with the fields of formats XY and XYN (R52). -/
def packXYN (op : Nibble) (x y : RegNo) (n : Nibble) : Word := (op ++ x) ++ (y ++ n)

/-- The word of an instruction (30_encoding.md R54). -/
def encode : Instr → Word
  | .cls => 0x00E0#16
  | .ret => 0x00EE#16
  | .jp nnn => packNNN 0x1#4 nnn
  | .call nnn => packNNN 0x2#4 nnn
  | .seByte x kk => packXKK 0x3#4 x kk
  | .sneByte x kk => packXKK 0x4#4 x kk
  | .seReg x y ign => packXYN 0x5#4 x y ign
  | .ldByte x kk => packXKK 0x6#4 x kk
  | .addByte x kk => packXKK 0x7#4 x kk
  | .ldReg x y => packXYN 0x8#4 x y 0x0#4
  | .or x y => packXYN 0x8#4 x y 0x1#4
  | .and x y => packXYN 0x8#4 x y 0x2#4
  | .xor x y => packXYN 0x8#4 x y 0x3#4
  | .addReg x y => packXYN 0x8#4 x y 0x4#4
  | .sub x y => packXYN 0x8#4 x y 0x5#4
  | .shr x y => packXYN 0x8#4 x y 0x6#4
  | .subn x y => packXYN 0x8#4 x y 0x7#4
  | .shl x y => packXYN 0x8#4 x y 0xE#4
  | .sneReg x y ign => packXYN 0x9#4 x y ign
  | .ldI nnn => packNNN 0xA#4 nnn
  | .rnd x kk => packXKK 0xC#4 x kk
  | .drw x y n => packXYN 0xD#4 x y n
  | .skp x => packXKK 0xE#4 x 0x9E#8
  | .sknp x => packXKK 0xE#4 x 0xA1#8
  | .ldFromDt x => packXKK 0xF#4 x 0x07#8
  | .ldKey x => packXKK 0xF#4 x 0x0A#8
  | .ldDt x => packXKK 0xF#4 x 0x15#8
  | .ldSt x => packXKK 0xF#4 x 0x18#8
  | .addI x => packXKK 0xF#4 x 0x1E#8
  | .ldF x => packXKK 0xF#4 x 0x29#8
  | .ldB x => packXKK 0xF#4 x 0x33#8
  | .storeRegs x => packXKK 0xF#4 x 0x55#8
  | .loadRegs x => packXKK 0xF#4 x 0x65#8
  | .sysAddr nnn => packNNN 0x0#4 nnn
  | .jpV0 nnn => packNNN 0xB#4 nnn
  | .unknown w => w

/-- The two bytes of an instruction as they stand in memory, high byte first (R34, R50). -/
def encodeBytes (i : Instr) : List Byte := [highByte (encode i), lowByte (encode i)]

/-- The word that opcode_table.json numbers `w`: the table's one word is 16 bits, so a shorter row stands for the same
bits with zeros above them. -/
def tableWord (nbits w : Nat) : Word := BitVec.ofNat 16 (w % 2 ^ nbits)

/-- What the decoder reads from a table row's word, laid out in memory's byte order. -/
def decodeTableWord (nbits w : Nat) : Option Instr :=
  match decode [highByte (tableWord nbits w), lowByte (tableWord nbits w)] with
  | .ok (i, _) => some i
  | .error _ => none

/-- One row of the opcode map of 30_encoding.md R54: a word is the row's when `w & mask = match`. -/
structure OpcodeRow where
  mnemonic : String
  mask : Word
  key : Word
  deriving DecidableEq, Repr

/-- Rows 1 to 19 of the opcode map (R54). -/
def opcodeRowsLow : List OpcodeRow :=
  [⟨"CLS", 0xFFFF, 0x00E0⟩, ⟨"RET", 0xFFFF, 0x00EE⟩, ⟨"JP_addr", 0xF000, 0x1000⟩, ⟨"CALL_addr", 0xF000, 0x2000⟩,
   ⟨"SE_Vx_byte", 0xF000, 0x3000⟩, ⟨"SNE_Vx_byte", 0xF000, 0x4000⟩, ⟨"SE_Vx_Vy", 0xF000, 0x5000⟩,
   ⟨"LD_Vx_byte", 0xF000, 0x6000⟩, ⟨"ADD_Vx_byte", 0xF000, 0x7000⟩, ⟨"LD_Vx_Vy", 0xF00F, 0x8000⟩,
   ⟨"OR_Vx_Vy", 0xF00F, 0x8001⟩, ⟨"AND_Vx_Vy", 0xF00F, 0x8002⟩, ⟨"XOR_Vx_Vy", 0xF00F, 0x8003⟩,
   ⟨"ADD_Vx_Vy", 0xF00F, 0x8004⟩, ⟨"SUB_Vx_Vy", 0xF00F, 0x8005⟩, ⟨"SHR_Vx", 0xF00F, 0x8006⟩,
   ⟨"SUBN_Vx_Vy", 0xF00F, 0x8007⟩, ⟨"SHL_Vx", 0xF00F, 0x800E⟩, ⟨"SNE_Vx_Vy", 0xF000, 0x9000⟩]

/-- Rows 20 to 33 of the opcode map (R54). -/
def opcodeRowsHigh : List OpcodeRow :=
  [⟨"LD_I_addr", 0xF000, 0xA000⟩, ⟨"RND_Vx_byte", 0xF000, 0xC000⟩, ⟨"DRW_Vx_Vy_n", 0xF000, 0xD000⟩,
   ⟨"SKP_Vx", 0xF0FF, 0xE09E⟩, ⟨"SKNP_Vx", 0xF0FF, 0xE0A1⟩, ⟨"LD_Vx_DT", 0xF0FF, 0xF007⟩,
   ⟨"LD_Vx_K", 0xF0FF, 0xF00A⟩, ⟨"LD_DT_Vx", 0xF0FF, 0xF015⟩, ⟨"LD_ST_Vx", 0xF0FF, 0xF018⟩,
   ⟨"ADD_I_Vx", 0xF0FF, 0xF01E⟩, ⟨"LD_F_Vx", 0xF0FF, 0xF029⟩, ⟨"LD_B_Vx", 0xF0FF, 0xF033⟩,
   ⟨"LD__I__Vx", 0xF0FF, 0xF055⟩, ⟨"LD_Vx__I", 0xF0FF, 0xF065⟩]

/-- The opcode map: the 33 defined rows, in the order of R54, apart from the decoder. -/
def opcodeRows : List OpcodeRow := opcodeRowsLow ++ opcodeRowsHigh

/-- The name spec/opcode_table.json gives an instruction's row. -/
def Instr.mnemonic : Instr → String
  | .cls => "CLS" | .ret => "RET" | .jp _ => "JP_addr" | .call _ => "CALL_addr"
  | .seByte _ _ => "SE_Vx_byte" | .sneByte _ _ => "SNE_Vx_byte" | .seReg _ _ _ => "SE_Vx_Vy"
  | .ldByte _ _ => "LD_Vx_byte" | .addByte _ _ => "ADD_Vx_byte" | .ldReg _ _ => "LD_Vx_Vy"
  | .or _ _ => "OR_Vx_Vy" | .and _ _ => "AND_Vx_Vy" | .xor _ _ => "XOR_Vx_Vy" | .addReg _ _ => "ADD_Vx_Vy"
  | .sub _ _ => "SUB_Vx_Vy" | .shr _ _ => "SHR_Vx" | .subn _ _ => "SUBN_Vx_Vy" | .shl _ _ => "SHL_Vx"
  | .sneReg _ _ _ => "SNE_Vx_Vy" | .ldI _ => "LD_I_addr" | .rnd _ _ => "RND_Vx_byte" | .drw _ _ _ => "DRW_Vx_Vy_n"
  | .skp _ => "SKP_Vx" | .sknp _ => "SKNP_Vx" | .ldFromDt _ => "LD_Vx_DT" | .ldKey _ => "LD_Vx_K"
  | .ldDt _ => "LD_DT_Vx" | .ldSt _ => "LD_ST_Vx" | .addI _ => "ADD_I_Vx" | .ldF _ => "LD_F_Vx" | .ldB _ => "LD_B_Vx"
  | .storeRegs _ => "LD__I__Vx" | .loadRegs _ => "LD_Vx__I"
  | .sysAddr _ => "SYS_addr" | .jpV0 _ => "JP_V0_addr" | .unknown _ => "UNKNOWN"

/-- An instruction of the Unknown class (R60): one whose word no defined row takes. -/
def Instr.isUnknown : Instr → Bool
  | .sysAddr _ | .jpV0 _ | .unknown _ => true
  | .cls | .ret | .jp _ | .call _ | .seByte _ _ | .sneByte _ _ | .seReg _ _ _ | .ldByte _ _ | .addByte _ _
  | .ldReg _ _ | .or _ _ | .and _ _ | .xor _ _ | .addReg _ _ | .sub _ _ | .shr _ _ | .subn _ _ | .shl _ _
  | .sneReg _ _ _ | .ldI _ | .rnd _ _ | .drw _ _ _ | .skp _ | .sknp _ | .ldFromDt _ | .ldKey _ | .ldDt _
  | .ldSt _ | .addI _ | .ldF _ | .ldB _ | .storeRegs _ | .loadRegs _ => false

end Sys2Proof
end

