-- ==== Sys2Proof/Config.lean ====
section
/-! DEFINITION. What is fixed for the machine but is no state: the parameter FONT and the free random byte
(00_scope.md R4). -/

namespace Sys2Proof

/-- The parameters that one machine fixes (00_scope.md R4). -/
structure Config where
  /-- FONT[0..79], the 80 font bytes that reset installs at 0x050 (20_memory.md R44, decision D15). -/
  font : Vector Byte 80
  deriving DecidableEq, Repr

/-- Glyphs 0 to 7 of the table of 20_memory.md R44, five bytes a glyph, top row first. -/
def fontLow : List Byte :=
  [0xF0, 0x90, 0x90, 0x90, 0xF0,
   0x20, 0x60, 0x20, 0x20, 0x70,
   0xF0, 0x10, 0xF0, 0x80, 0xF0,
   0xF0, 0x10, 0xF0, 0x10, 0xF0,
   0x90, 0x90, 0xF0, 0x10, 0x10,
   0xF0, 0x80, 0xF0, 0x10, 0xF0,
   0xF0, 0x80, 0xF0, 0x90, 0xF0,
   0xF0, 0x10, 0x20, 0x40, 0x40]

/-- Glyphs 8 to F of the table of 20_memory.md R44. -/
def fontHigh : List Byte :=
  [0xF0, 0x90, 0xF0, 0x90, 0xF0,
   0xF0, 0x90, 0xF0, 0x10, 0xF0,
   0xF0, 0x90, 0xF0, 0x90, 0x90,
   0xE0, 0x90, 0xE0, 0x90, 0xE0,
   0xF0, 0x80, 0x80, 0x80, 0xF0,
   0xE0, 0x90, 0x90, 0x90, 0xE0,
   0xF0, 0x80, 0xF0, 0x80, 0xF0,
   0xF0, 0x80, 0xF0, 0x80, 0x80]

/-- The machine's parameters: FONT has the default table of 20_memory.md R44 (PRESUMED, log 1: the spec takes the
bytes from general knowledge). -/
def config : Config where
  font := ⟨(fontLow ++ fontHigh).toArray, rfl⟩

/-- The free random bytes: the byte `rnd` of the `k`-th draw. It has no body, so nothing is known of any draw
(42_alu.md R103, decision D12: "any value 0 to 255, under no law, possibly different every time"; log 2). -/
opaque Config.rnd : Nat → Byte

end Sys2Proof
end

