-- ==== Sys2Proof/Machine/State.lean ====
section
/-! DEFINITION. The state of the machine (10_state.md R10), its value after reset (R23), and the reasons a step can stop:
none, on this machine (40_step_cycle.md R77). -/

namespace Sys2Proof.Machine

/-- Memory as data: addresses strictly rising, no cell listed that holds its reset content (Machine/Memory.lean). -/
abbrev Memory := List Host.Cell

/-- What a step reports (60_exceptions.md R160). -/
inductive StepOutcome where
  /-- Normal advance. -/
  | normal
  /-- LD Vx,K with no key pressed (45_keypad.md R132). Not an error. -/
  | blockedOnKey
  /-- An Unknown word, the word itself (47_unknown.md R150). -/
  | unknownOpcode (w : Word)
  /-- CALL on a full stack (41_control_flow.md R82). -/
  | stackOverflow
  /-- RET on an empty stack (41_control_flow.md R80). -/
  | stackUnderflow
  deriving DecidableEq, Repr

/-- What a `load` reports (70_reset_and_hazards.md R193). -/
inductive LoadResult where
  | ok
  | programTooLarge
  deriving DecidableEq, Repr

/-- The output of one transition (00_scope.md R6). It is no state of the machine (10_state.md R24): nothing reads it, and
the next transition overwrites it. -/
inductive Report where
  /-- A transition without an output: reset, `key_write`, `draw_clear`; also before the first transition (log 4). -/
  | idle
  /-- The outcome of a `step` (60_exceptions.md R160). -/
  | step (o : StepOutcome)
  /-- The `beep` of a `tick` (60_exceptions.md R170). -/
  | tick (beep : Bool)
  /-- The result of a `load` (70_reset_and_hazards.md R193). -/
  | load (r : LoadResult)
  /-- The pixels a host read gives (60_exceptions.md R178). -/
  | framebuffer (fb : Pixels)
  /-- The draw flag a host read gives (60_exceptions.md R178). -/
  | drawFlag (b : Bool)
  deriving DecidableEq, Repr

/-- One request of the host, served as one atomic transition (60_exceptions.md R175). -/
inductive Request where
  /-- Execute one instruction, with the host's `rnd` (40_step_cycle.md R70). -/
  | step (rnd : Byte)
  /-- One timer countdown (60_exceptions.md R170). -/
  | tick
  /-- Write one key flag (60_exceptions.md R176). -/
  | keyWrite (k : RegNo) (pressed : Bool)
  /-- Clear the draw flag (60_exceptions.md R177). -/
  | drawClear
  /-- Copy a program to 0x200 (70_reset_and_hazards.md R193). -/
  | load (bytes : List Byte)
  /-- Put every field at its reset value (70_reset_and_hazards.md R190). -/
  | reset
  /-- Read the pixels (60_exceptions.md R178). -/
  | readFramebuffer
  /-- Read the draw flag (60_exceptions.md R178). -/
  | readDrawFlag
  deriving DecidableEq, Repr

/-- The MODEL's own fields, no architectural state of 10_state.md R10: the inputs and outputs of a transition
(00_scope.md R5 and R6), which stand in State because a step is a function from a State (logs 2 to 4). -/
structure HostPort where
  /-- The input `rnd` of the step under way (42_alu.md R103): written by `step` before every instruction. -/
  rnd : Byte
  /-- The output `outcome_word`: the word the latest step fetched (60_exceptions.md R160). -/
  outcomeWord : Word
  /-- The output of the latest transition. -/
  report : Report
  /-- The host's pending requests, oldest first: any interleaving of transitions (70_reset_and_hazards.md R201). -/
  requests : List Request
  /-- How many free random bytes were drawn (the argument of `Config.rnd`). -/
  draws : Nat
  deriving DecidableEq, Repr

/-- The state of the machine: the fields of 10_state.md R10, and the model's own `port`. -/
structure State where
  /-- 4096 cells of 8 bits (R11). -/
  mem : Memory
  /-- V0 to VF (R12, R13). -/
  v : Vector Byte 16
  /-- The 16-bit index register `I` (R14). -/
  i : Word
  /-- The program counter (R15). -/
  pc : Addr
  /-- The 16 slots of the call stack (R16). -/
  stack : Vector Addr 16
  /-- How many slots are valid, 0 to 16 (R16). -/
  sp : Fin 17
  /-- `DT`, the delay timer (R17). -/
  dt : Byte
  /-- `ST`, the sound timer (R18). -/
  st : Byte
  /-- The framebuffer (R19). -/
  fb : Pixels
  /-- The key flags, true = pressed (R20). -/
  keypad : Vector Bool 16
  /-- The draw flag (R21). -/
  drawFlag : Bool
  /-- The model's own input and output fields. -/
  port : HostPort
  deriving DecidableEq, Repr

/-- The reasons the machine stops with a fault. There are none, so the type has no constructor: "No outcome stops the
machine" (40_step_cycle.md R77), no access can fail (20_memory.md R33), and the three error outcomes are reports with a
defined next state (60_exceptions.md R161). Safe: the model never stops where the machine goes on. -/
inductive Fault where
  deriving DecidableEq, Repr

/-- The reasons the model gives no meaning. -/
inductive Refusal where
  /-- Raised by an arm of `exec` that has no meaning yet, with the row's mnemonic. Safe. No arm raises it now. -/
  | notModelled (mnemonic : String)
  deriving DecidableEq, Repr

/-- The model's own fields before the first transition (DESIGN CHOICE, logs 2 to 4: the spec gives them no value, since
they are no state of the machine). -/
def HostPort.initial : HostPort where
  rnd := 0
  outcomeWord := 0
  report := .idle
  requests := []
  draws := 0

/-- The machine right after `reset` (10_state.md R23). Memory lists nothing: each cell reads as its reset content, the
font at 0x050 to 0x09F and 0 elsewhere (Machine/Memory.lean). -/
def State.reset : State where
  mem := []
  v := Vector.replicate 16 0
  i := 0
  pc := 0x200
  stack := Vector.replicate 16 0
  sp := 0
  dt := 0
  st := 0
  fb := Vector.replicate 2048 false
  keypad := Vector.replicate 16 false
  drawFlag := false
  port := HostPort.initial

end Sys2Proof.Machine
end

