-- ==== Sys2Proof/Machine/Memory.lean ====
section
/-! DEFINITION. Memory as canonical data: what an unlisted cell reads as, one read and one write of a cell, and the
canonical form (20_memory.md R30, R31, R33; 10_state.md R23). -/

namespace Sys2Proof.Machine

/-- MEM_SIZE (00_scope.md R4). -/
abbrev memSize : Nat := 4096

/-- FONT_BASE (00_scope.md R4). -/
abbrev fontBase : Nat := 0x050

/-- PROG_BASE (00_scope.md R4). -/
abbrev progBase : Nat := 0x200

/-- PROG_MAX, the longest program (00_scope.md R4). -/
abbrev progMax : Nat := memSize - progBase

/-- The reset content of cell `a`, which is what an unlisted cell reads as: the font byte, or 0 (10_state.md R23). -/
def initialByte (a : Nat) : Byte :=
  if h : fontBase ≤ a ∧ a < fontBase + 80 then config.font[a - fontBase]'(by omega) else 0

/-- The content of cell `a`. -/
def cellAt : Memory → Nat → Byte
  | [], a => initialByte a
  | (b, w) :: m, a => if a = b then w else cellAt m a

/-- Put a cell in front of a memory, unless it holds its reset content. -/
def consCell (a : Nat) (w : Byte) (m : Memory) : Memory := if w = initialByte a then m else (a, w) :: m

/-- Set cell `a`, keeping the canonical form. -/
def setCell : Memory → Nat → Byte → Memory
  | [], a, w => consCell a w []
  | (b, u) :: m, a, w =>
    if a < b then consCell a w ((b, u) :: m)
    else if a = b then consCell a w m
    else (b, u) :: setCell m a w

/-- The cells of a memory stand at rising addresses above `lo`, all below 4096, and none holds its reset content. -/
def wfAbove : Nat → Memory → Bool
  | _, [] => true
  | lo, (b, w) :: m => decide (lo ≤ b) && decide (b < memSize) && (w != initialByte b) && wfAbove (b + 1) m

/-- The canonical form: equal memories are equal lists. -/
def Memory.wf (m : Memory) : Bool := wfAbove 0 m

end Sys2Proof.Machine
end

