-- ==== Sys2Proof/Machine/Ops.lean ====
section
/-! DEFINITION. The named operations on the state: one update for each field, the register, memory, stack, screen and
keypad primitives of the rules, fetching an instruction, how an instruction ends, and reporting an error (the machine's
only exception-like event: it has no trap entry and no return from one, 60_exceptions.md R163, R164). -/

namespace Sys2Proof.Machine

/-- The result type of `exec` and `step`. -/
abbrev Result := Host.Outcome State Fault Refusal

/-- Read register `Vr` (10_state.md R12: no register is hardwired). -/
def State.readReg (s : State) (r : RegNo) : Byte := s.v[r.toNat]

/-- Write register `Vr` (10_state.md R12). -/
def State.writeReg (s : State) (r : RegNo) (b : Byte) : State := { s with v := s.v.set r.toNat b }

/-- Write the index register, all 16 bits (10_state.md R14). -/
def State.writeIndex (s : State) (w : Word) : State := { s with i := w }

/-- Set the program counter; its arithmetic is mod 4096 by its type (10_state.md R15). -/
def State.writePc (s : State) (a : Addr) : State := { s with pc := a }

/-- Write the delay timer (10_state.md R17). -/
def State.writeDelay (s : State) (b : Byte) : State := { s with dt := b }

/-- Write the sound timer (10_state.md R18). -/
def State.writeSound (s : State) (b : Byte) : State := { s with st := b }

/-- Write all pixels (10_state.md R19). -/
def State.writeScreen (s : State) (p : Pixels) : State := { s with fb := p }

/-- Write the draw flag (10_state.md R21). -/
def State.writeDrawFlag (s : State) (b : Bool) : State := { s with drawFlag := b }

/-- Read key flag `k` (10_state.md R20). -/
def State.readKey (s : State) (k : RegNo) : Bool := s.keypad[k.toNat]

/-- Write key flag `k`; only the host does (60_exceptions.md R176). -/
def State.writeKey (s : State) (k : RegNo) (b : Bool) : State := { s with keypad := s.keypad.set k.toNat b }

/-- Write the model's own fields. -/
def State.writePort (s : State) (p : HostPort) : State := { s with port := p }

/-- `MemRead(addr, 1)`: any address, reduced mod 4096 (20_memory.md R33). -/
def State.memRead (s : State) (a : Nat) : Byte := cellAt s.mem (a % memSize)

/-- `MemWrite(addr, 1, v)`: any address, reduced mod 4096 (20_memory.md R33). -/
def State.memWrite (s : State) (a : Nat) (b : Byte) : State := { s with mem := setCell s.mem (a % memSize) b }

/-- `MemWrite` of a list of bytes at ascending addresses from `a` on. -/
def State.memWriteList (s : State) (a : Nat) : List Byte → State
  | [] => s
  | b :: bs => (s.memWrite a b).memWriteList (a + 1) bs

/-- `push(v)` (10_state.md R16), for a stack that is not full; on a full stack it changes nothing, and no rule pushes then. -/
def State.push (s : State) (a : Addr) : State :=
  if h : s.sp.val < 16 then { s with stack := s.stack.set s.sp.val a, sp := ⟨s.sp.val + 1, by omega⟩ } else s

/-- The value `pop()` returns, the newest valid entry `stack[sp - 1]` (10_state.md R16); no rule pops an empty stack, and
there it is `stack[0]`. -/
def State.top (s : State) : Addr := s.stack[s.sp.val - 1]'(by omega)

/-- What `pop()` does to the count: one entry fewer (10_state.md R16). -/
def State.dropTop (s : State) : State := { s with sp := ⟨s.sp.val - 1, by omega⟩ }

/-- The word at `pc`: two bytes, the high one first, the second address mod 4096 (40_step_cycle.md R70). -/
def State.fetchWord (s : State) : Word := wordOfBytes (s.memRead s.pc.toNat) (s.memRead (s.pc.toNat + 1))

/-- Set the output of the transition under way. -/
def State.report (s : State) (r : Report) : State := s.writePort { s.port with report := r }

/-- Give a step its input `rnd` and its output `outcome_word` (40_step_cycle.md R70, R74). -/
def State.latch (s : State) (rnd : Byte) (w : Word) : State :=
  s.writePort { s.port with rnd := rnd, outcomeWord := w }

/-- Count one free random byte as drawn. -/
def State.countDraw (s : State) : State := s.writePort { s.port with draws := s.port.draws + 1 }

/-- Replace the list of pending requests. -/
def State.withRequests (s : State) (rs : List Request) : State := s.writePort { s.port with requests := rs }

/-- End an instruction at `pc`'s new value with outcome `Normal` (40_step_cycle.md R74). -/
def finishAt (a : Addr) (s : State) : Result := .next ((s.writePc a).report (.step .normal))

/-- End an instruction by the default policy: `pc` advances by 2 (40_step_cycle.md R71). -/
def finish (s : State) : Result := finishAt (s.pc + 2) s

/-- End a skip: `pc` advances by 4 where the condition holds, else by 2 (41_control_flow.md R83). -/
def finishSkip (c : Bool) (s : State) : Result := finishAt (if c then s.pc + 4 else s.pc + 2) s

/-- Report an error outcome: `pc` advances by 2 and nothing else changes (60_exceptions.md R161). This is all there is to
an exception on this machine: no saved pc or status, no mode, no vector (R163). -/
def raiseError (o : StepOutcome) (s : State) : Result := .next ((s.writePc (s.pc + 2)).report (.step o))

/-- Report `BlockedOnKey`: nothing changes (45_keypad.md R132). -/
def blockOnKey (s : State) : Result := .next (s.report (.step .blockedOnKey))

end Sys2Proof.Machine
end

