-- ==== Sys2Proof/Machine/Operands.lean ====
section
/-! DEFINITION. The operand forms: item addresses from `I` (20_memory.md R37), registers by position (R114, R115), the
decimal digits (R113), the glyph address (R112), the key number (R130), the first pressed key (R132) and the pixels a
sprite selects (R121). -/

namespace Sys2Proof.Machine

/-- The address of item `k` of an instruction: `(I + k) mod 4096` (20_memory.md R37). -/
def State.itemAddr (s : State) (k : Nat) : Nat := (s.i.toNat + k) % memSize

/-- Store bytes as items 0, 1, 2, ... of an instruction: byte `k` at `itemAddr k` (20_memory.md R36, R37). -/
def State.storeItems (s : State) (bs : List Byte) : State := s.memWriteList (s.itemAddr 0) bs

/-- Load registers by position: `Vk` from the address of item `k`. Memory and `I` are those of `s` throughout: no load
changes them (43_index_memory.md R115). -/
def State.loadItems (s : State) (rs : List RegNo) : State :=
  rs.foldl (fun t k => t.writeReg k (s.memRead (s.itemAddr k.toNat))) s

/-- The register numbers 0 to `x`, in that order (43_index_memory.md R114). -/
def regsUpTo (x : RegNo) : List RegNo := (List.range (x.toNat + 1)).map (BitVec.ofNat 4)

/-- The hundreds, tens and units of a byte (43_index_memory.md R113). -/
def bcdDigits (b : Byte) : List Byte :=
  [BitVec.ofNat 8 (b.toNat / 100), BitVec.ofNat 8 (b.toNat / 10 % 10), BitVec.ofNat 8 (b.toNat % 10)]

/-- The address LD F,Vx gives for a value: `0x050 + 5 * Vx`, the whole of `Vx` (43_index_memory.md R112, decision D31). -/
def glyphAddr (b : Byte) : Word := BitVec.ofNat 16 (fontBase + 5 * b.toNat)

/-- The key that SKP and SKNP test for a value: its low four bits (45_keypad.md R130, decision D11). -/
def keyOf (b : Byte) : RegNo := b.extractLsb' 0 4

/-- The key numbers 0 to 15, in scanning order (45_keypad.md R132). -/
def allKeys : List RegNo := (List.range 16).map (BitVec.ofNat 4)

/-- `first_key()`: the least pressed key, or none (45_keypad.md R132). -/
def State.firstKey (s : State) : Option RegNo := allKeys.find? s.readKey

/-- The index of a pixel of the framebuffer. -/
abbrev PixelIdx := Fin 2048

/-- The flat index of the pixel `dx` right of and `dy` below the start, wrapped as one number (44_display.md R121, corner
case 1). -/
def pixelIdx (x0 y0 dx dy : Nat) : PixelIdx := ⟨(x0 + dx + (y0 + dy) * 64) % 2048, by omega⟩

/-- The pixels that the 1 bits of one sprite row select, bit 7 the leftmost (44_display.md R121, decision D14). -/
def rowTargets (x0 y0 dy : Nat) (row : Byte) : List PixelIdx :=
  ((List.range 8).filter (fun dx => row.getLsbD (7 - dx))).map (fun dx => pixelIdx x0 y0 dx dy)

/-- The pixels that an `n`-row sprite at `I` selects from the start position, in the order of the pseudocode of
44_display.md R121. -/
def State.spriteTargets (s : State) (x0 y0 n : Nat) : List PixelIdx :=
  (List.range n).flatMap (fun dy => rowTargets x0 y0 dy (s.memRead (s.itemAddr dy)))

/-- The pixels that `DRW Vx,Vy,n` selects: the start column is `Vx mod 64`, the start row `Vy mod 32` (44_display.md R121). -/
def State.drawTargets (s : State) (x y : RegNo) (n : Nibble) : List PixelIdx :=
  s.spriteTargets ((s.readReg x).toNat % 64) ((s.readReg y).toNat % 32) n.toNat

end Sys2Proof.Machine
end

