-- ==== Sys2Proof/Machine/Flags.lean ====
section
/-! DEFINITION. The values VF takes as a flag (10_state.md R13), and the order of the two writes of a flag-writing
instruction (42_alu.md R91). -/

namespace Sys2Proof.Machine

/-- A flag as a register's value, 1 or 0. -/
def flagByte (b : Bool) : Byte := if b then 1 else 0

/-- The carry of ADD: the sum of the unsigned values exceeds 255 (42_alu.md R96). -/
def carryOut (a b : Byte) : Bool := decide (a.toNat + b.toNat > 255)

/-- "No borrow" of `a - b`: `a >= b` (42_alu.md R97, R99). -/
def noBorrow (a b : Byte) : Bool := decide (a.toNat ≥ b.toNat)

/-- The bit SHR shifts out, bit 0 (42_alu.md R98). -/
def shiftedOutRight (a : Byte) : Bool := a.getLsbD 0

/-- The bit SHL shifts out, bit 7 (42_alu.md R100). -/
def shiftedOutLeft (a : Byte) : Bool := a.getLsbD 7

/-- Write the result to `Vx`, then the flag to VF, which therefore wins when `x = F` (42_alu.md R91, decision D8). -/
def State.writeWithFlag (s : State) (x : RegNo) (b : Byte) (flag : Bool) : State :=
  (s.writeReg x b).writeReg VF (flagByte flag)

/-- Toggle one pixel, noting whether it was 1 (44_display.md R121). -/
def xorPixel (acc : Pixels × Bool) (k : PixelIdx) : Pixels × Bool :=
  (acc.1.set k.val (!acc.1[k.val]), acc.2 || acc.1[k.val])

/-- Toggle a list of pixels one after the other: the new pixels, and whether any went from 1 to 0, the collision flag
(44_display.md R121). -/
def xorPixels (fb : Pixels) (targets : List PixelIdx) : Pixels × Bool := targets.foldl xorPixel (fb, false)

end Sys2Proof.Machine
end

