-- ==== Sys2Proof/Machine/Alu.lean ====
section
/-! DEFINITION. Register load, arithmetic, logic, shift and random (42_alu.md). All arithmetic is unsigned and wraps mod
256 (R102). -/

namespace Sys2Proof.Machine

/-- LD Vx,byte (R90). -/
def execLdByte (x : RegNo) (kk : Byte) (s : State) : Result := finish (s.writeReg x kk)

/-- ADD Vx,byte (R92): no flag. -/
def execAddByte (x : RegNo) (kk : Byte) (s : State) : Result := finish (s.writeReg x (s.readReg x + kk))

/-- LD Vx,Vy (R93). -/
def execLdReg (x y : RegNo) (s : State) : Result := finish (s.writeReg x (s.readReg y))

/-- OR Vx,Vy (R94): no flag (decision D9). -/
def execOr (x y : RegNo) (s : State) : Result := finish (s.writeReg x (s.readReg x ||| s.readReg y))

/-- AND Vx,Vy (R95): no flag (decision D9). -/
def execAnd (x y : RegNo) (s : State) : Result := finish (s.writeReg x (s.readReg x &&& s.readReg y))

/-- XOR Vx,Vy (R101): no flag (decision D9). -/
def execXor (x y : RegNo) (s : State) : Result := finish (s.writeReg x (s.readReg x ^^^ s.readReg y))

/-- ADD Vx,Vy (R96): VF is the carry. -/
def execAddReg (x y : RegNo) (s : State) : Result :=
  finish (s.writeWithFlag x (s.readReg x + s.readReg y) (carryOut (s.readReg x) (s.readReg y)))

/-- SUB Vx,Vy (R97): VF is "no borrow". -/
def execSub (x y : RegNo) (s : State) : Result :=
  finish (s.writeWithFlag x (s.readReg x - s.readReg y) (noBorrow (s.readReg x) (s.readReg y)))

/-- SHR Vx (R98): `Vy` is neither read nor written. -/
def execShr (x _y : RegNo) (s : State) : Result :=
  finish (s.writeWithFlag x (s.readReg x >>> 1) (shiftedOutRight (s.readReg x)))

/-- SUBN Vx,Vy (R99): `Vy - Vx`, VF is "no borrow". -/
def execSubn (x y : RegNo) (s : State) : Result :=
  finish (s.writeWithFlag x (s.readReg y - s.readReg x) (noBorrow (s.readReg y) (s.readReg x)))

/-- SHL Vx (R100): `Vy` is neither read nor written. -/
def execShl (x _y : RegNo) (s : State) : Result :=
  finish (s.writeWithFlag x (s.readReg x <<< 1) (shiftedOutLeft (s.readReg x)))

/-- RND Vx,byte (R103): the step's input `rnd`, which `step` supplies as a free value (log 2). -/
def execRnd (x : RegNo) (kk : Byte) (s : State) : Result := finish (s.writeReg x (s.port.rnd &&& kk))

end Sys2Proof.Machine
end

