-- ==== Sys2Proof/Machine/Control.lean ====
section
/-! DEFINITION. Control transfer: RET, JP, CALL, SE, SNE (41_control_flow.md). -/

namespace Sys2Proof.Machine

/-- RET (R80). -/
def execRet (s : State) : Result :=
  if s.sp.val = 0 then raiseError .stackUnderflow s else finishAt s.top s.dropTop

/-- JP addr (R81). -/
def execJp (nnn : Addr) (s : State) : Result := finishAt nnn s

/-- CALL addr (R82): the pushed address is that of the instruction after this one. -/
def execCall (nnn : Addr) (s : State) : Result :=
  if s.sp.val = 16 then raiseError .stackOverflow s else finishAt nnn (s.push (s.pc + 2))

/-- SE Vx,byte (R83). -/
def execSeByte (x : RegNo) (kk : Byte) (s : State) : Result := finishSkip (s.readReg x == kk) s

/-- SNE Vx,byte (R84). -/
def execSneByte (x : RegNo) (kk : Byte) (s : State) : Result := finishSkip (s.readReg x != kk) s

/-- SE Vx,Vy (R85); the low nibble is ignored (30_encoding.md R59). -/
def execSeReg (x y : RegNo) (_ign : Nibble) (s : State) : Result := finishSkip (s.readReg x == s.readReg y) s

/-- SNE Vx,Vy (R86); the low nibble is ignored (30_encoding.md R59). -/
def execSneReg (x y : RegNo) (_ign : Nibble) (s : State) : Result := finishSkip (s.readReg x != s.readReg y) s

end Sys2Proof.Machine
end

