-- ==== Sys2Proof/Machine/Display.lean ====
section
/-! DEFINITION. The display instructions (44_display.md). Both set the draw flag whether or not a pixel changed
(90_conflicts.md C3). -/

namespace Sys2Proof.Machine

/-- CLS (R120): VF is not written. -/
def execCls (s : State) : Result := finish ((s.writeScreen (Vector.replicate 2048 false)).writeDrawFlag true)

/-- DRW Vx,Vy,n (R121): the position is read before VF is written. -/
def execDrw (x y : RegNo) (n : Nibble) (s : State) : Result :=
  let drawn := xorPixels s.fb (s.drawTargets x y n)
  finish (((s.writeScreen drawn.1).writeReg VF (flagByte drawn.2)).writeDrawFlag true)

end Sys2Proof.Machine
end

