-- ==== Sys2Proof/Machine/IndexMemory.lean ====
section
/-! DEFINITION. The index register and memory instructions (43_index_memory.md). `I` is left unchanged by every
instruction that uses it as a base (R114, R115, decision D10). -/

namespace Sys2Proof.Machine

/-- LD I,addr (R110). -/
def execLdI (nnn : Addr) (s : State) : Result := finish (s.writeIndex (nnn.setWidth 16))

/-- ADD I,Vx (R111): 16 bits, no flag. -/
def execAddI (x : RegNo) (s : State) : Result := finish (s.writeIndex (s.i + (s.readReg x).setWidth 16))

/-- LD F,Vx (R112). -/
def execLdF (x : RegNo) (s : State) : Result := finish (s.writeIndex (glyphAddr (s.readReg x)))

/-- LD B,Vx (R113): hundreds, tens, units at `I`, `I + 1`, `I + 2`. -/
def execLdB (x : RegNo) (s : State) : Result := finish (s.storeItems (bcdDigits (s.readReg x)))

/-- LD [I],Vx (R114): V0 to Vx at `I` to `I + x`. -/
def execStoreRegs (x : RegNo) (s : State) : Result :=
  finish (s.storeItems ((regsUpTo x).map s.readReg))

/-- LD Vx,[I] (R115): V0 to Vx from `I` to `I + x`. -/
def execLoadRegs (x : RegNo) (s : State) : Result := finish (s.loadItems (regsUpTo x))

end Sys2Proof.Machine
end

