-- ==== Sys2Proof/Machine/Keypad.lean ====
section
/-! DEFINITION. The keypad instructions (45_keypad.md). -/

namespace Sys2Proof.Machine

/-- SKP Vx (R130). -/
def execSkp (x : RegNo) (s : State) : Result := finishSkip (s.readKey (keyOf (s.readReg x))) s

/-- SKNP Vx (R131). -/
def execSknp (x : RegNo) (s : State) : Result := finishSkip (!s.readKey (keyOf (s.readReg x))) s

/-- LD Vx,K (R132): with no key pressed the step changes nothing, and the next step decodes the same word again. -/
def execLdKey (x : RegNo) (s : State) : Result :=
  match s.firstKey with
  | none => blockOnKey s
  | some k => finish (s.writeReg x (k.setWidth 8))

end Sys2Proof.Machine
end

