-- ==== Sys2Proof/Machine/Timers.lean ====
section
/-! DEFINITION. The timer transfer instructions (46_timers.md). The countdown is no instruction: `tickTimers` in
Machine/HostOps.lean. -/

namespace Sys2Proof.Machine

/-- LD Vx,DT (R140). -/
def execLdFromDt (x : RegNo) (s : State) : Result := finish (s.writeReg x s.dt)

/-- LD DT,Vx (R141). -/
def execLdDt (x : RegNo) (s : State) : Result := finish (s.writeDelay (s.readReg x))

/-- LD ST,Vx (R142): no beep, which only a tick raises. -/
def execLdSt (x : RegNo) (s : State) : Result := finish (s.writeSound (s.readReg x))

end Sys2Proof.Machine
end

