-- ==== Sys2Proof/Machine/Unknown.lean ====
section
/-! DEFINITION. The Unknown class (47_unknown.md): `pc` advances by 2, the word is reported, nothing else changes. -/

namespace Sys2Proof.Machine

/-- Unknown(w) (R150). -/
def execUnknown (w : Word) (s : State) : Result := raiseError (.unknownOpcode w) s

/-- `SYS addr`, the words 0nnn other than 00E0 and 00EE (R151). -/
def execSysAddr (nnn : Addr) (s : State) : Result := raiseError (.unknownOpcode (packNNN 0x0#4 nnn)) s

/-- `JP V0,addr`, the words Bnnn (R152): no jump. -/
def execJpV0 (nnn : Addr) (s : State) : Result := raiseError (.unknownOpcode (packNNN 0xB#4 nnn)) s

end Sys2Proof.Machine
end

