-- ==== Sys2Proof/Machine/HostOps.lean ====
section
/-! DEFINITION. The transitions that are no instruction: `tick` (60_exceptions.md R170) and the host's operations
(R175 to R178; 70_reset_and_hazards.md R190, R193). -/

namespace Sys2Proof.Machine

/-- A timer one tick later: it stops at 0 (60_exceptions.md R170). -/
def countDown (b : Byte) : Byte := if b = 0 then 0 else b - 1

/-- `tick()`: both timers count down; `beep` exactly when ST goes from 1 to 0 (60_exceptions.md R170, R172). -/
def tickTimers (s : State) : State :=
  ((s.writeDelay (countDown s.dt)).writeSound (countDown s.st)).report (.tick (s.st == 1))

/-- `key_write(k, b)` (60_exceptions.md R176). -/
def keyWrite (k : RegNo) (b : Bool) (s : State) : State := (s.writeKey k b).report .idle

/-- `draw_clear` (60_exceptions.md R177). -/
def drawClear (s : State) : State := (s.writeDrawFlag false).report .idle

/-- `load(bytes)`: refused whole when too long, else copied to 0x200 and on (70_reset_and_hazards.md R193, decision D22). -/
def loadProgram (bytes : List Byte) (s : State) : State :=
  if bytes.length > progMax then s.report (.load .programTooLarge)
  else (s.memWriteList progBase bytes).report (.load .ok)

/-- `reset`: every field of 10_state.md R10 at its reset value (70_reset_and_hazards.md R190). The host's own requests and
the count of draws are no state of the machine and stay. -/
def resetMachine (s : State) : State := (State.reset.writePort s.port).report .idle

/-- The host reads the pixels (60_exceptions.md R178). -/
def readFramebuffer (s : State) : State := s.report (.framebuffer s.fb)

/-- The host reads the draw flag (60_exceptions.md R178). -/
def readDrawFlag (s : State) : State := s.report (.drawFlag s.drawFlag)

end Sys2Proof.Machine
end

