-- ==== Sys2Proof/Machine/Step.lean ====
section
/-! DEFINITION. One transition of the whole machine: the executor's step (40_step_cycle.md R70), or the host's oldest
pending request (60_exceptions.md R175, 20_memory.md R38). -/

namespace Sys2Proof.Machine

/-- `step(rnd)`: fetch, decode, execute (40_step_cycle.md R70). -/
def executorStep (rnd : Byte) (s : State) : Host.Outcome State Fault Refusal :=
  exec (decodeWord s.fetchWord) (s.latch rnd s.fetchWord)

/-- Serve one request of the host. -/
def serve : Request → State → Host.Outcome State Fault Refusal
  | .step rnd, s => executorStep rnd s
  | .tick, s => .next (tickTimers s)
  | .keyWrite k b, s => .next (keyWrite k b s)
  | .drawClear, s => .next (drawClear s)
  | .load bytes, s => .next (loadProgram bytes s)
  | .reset, s => .next (resetMachine s)
  | .readFramebuffer, s => .next (readFramebuffer s)
  | .readDrawFlag, s => .next (readDrawFlag s)

/-- One transition. The pending requests are the host's schedule (log 3): the oldest is served, and with none pending the
host requests a `step` whose `rnd` is a free byte (log 2). -/
def step (s : State) : Host.Outcome State Fault Refusal :=
  match s.port.requests with
  | [] => executorStep (Config.rnd s.port.draws) s.countDraw
  | r :: rs => serve r (s.withRequests rs)

/-- `s` with the table's word stored at `pc`, high byte first, and no request of the host pending, so that the next `step`
fetches and runs exactly that word. This stands for the host's `load` (70_reset_and_hazards.md R195, log 7). -/
def State.withFetchWord (s : State) (nbits w : Nat) : State :=
  (s.memWriteList s.pc.toNat [highByte (tableWord nbits w), lowByte (tableWord nbits w)]).withRequests []

end Sys2Proof.Machine
end

