-- ==== Sys2Proof/Safety.lean ====
section
/-! DEFINITION. The terms claims are made in: the invariant, error outcomes and safe runs, what an instruction leaves
unchanged, the pixels a sprite selects, and the cases a careful claim excludes. -/

namespace Sys2Proof.Machine

/-- The invariant of every transition: memory is in its canonical form, every listed address below 4096. The other
invariants of 10_state.md R22 that hold (8-bit cells, `0 <= sp <= 16`, pixels 0 or 1) hold by the types of the fields. -/
def State.Inv (s : State) : Prop := s.mem.wf = true

/-- The codes of the outcomes (60_exceptions.md R160, decision D17). -/
def StepOutcome.code : StepOutcome → BitVec 3
  | .normal => 0
  | .blockedOnKey => 1
  | .unknownOpcode _ => 2
  | .stackOverflow => 3
  | .stackUnderflow => 4

/-- The three error outcomes, codes 2, 3 and 4 (60_exceptions.md R161). -/
def StepOutcome.isError : StepOutcome → Bool
  | .unknownOpcode _ | .stackOverflow | .stackUnderflow => true
  | .normal | .blockedOnKey => false

/-- The latest transition reported an error outcome. -/
def State.reportsError (s : State) : Bool :=
  match s.port.report with
  | .step o => o.isError
  | .idle | .tick _ | .load _ | .framebuffer _ | .drawFlag _ => false

/-- The `k` transitions from `s` all go on and none reports an error outcome: what a claim about a program takes as its
premise or proves (93_implementation_defined.md U1). DESIGN CHOICE (log 9): a run ends after a given number of transitions, the
host's requests counted among them; 40_step_cycle.md R77 leaves the end of a run to the model (decision D29). -/
def SafeRun : Nat → State → Prop
  | 0, _ => True
  | k + 1, s => ∃ t, step s = .next t ∧ t.reportsError = false ∧ SafeRun k t

/-- The parts of the state, other than `pc`, the V registers and memory, that some instruction may write
(40_step_cycle.md R75). -/
inductive Part where
  | index
  | stack
  | delayTimer
  | soundTimer
  | screen
  | drawFlag
  deriving DecidableEq, Repr

/-- What an instruction leaves unchanged: every register not in `regs`, every byte of memory not at an address in
`stored`, every part not in `parts`; always the keypad, the inputs of the step and the host's requests. `pc` may change. -/
def Unchanged (regs : List RegNo) (parts : List Part) (stored : List Nat) (s t : State) : Prop :=
  (∀ r, r ∉ regs → t.readReg r = s.readReg r) ∧
  (∀ a, a < memSize → a ∉ stored → t.memRead a = s.memRead a) ∧
  (Part.index ∉ parts → t.i = s.i) ∧
  (Part.stack ∉ parts → t.stack = s.stack ∧ t.sp = s.sp) ∧
  (Part.delayTimer ∉ parts → t.dt = s.dt) ∧
  (Part.soundTimer ∉ parts → t.st = s.st) ∧
  (Part.screen ∉ parts → t.fb = s.fb) ∧
  (Part.drawFlag ∉ parts → t.drawFlag = s.drawFlag) ∧
  t.keypad = s.keypad ∧ t.port.rnd = s.port.rnd ∧ t.port.outcomeWord = s.port.outcomeWord ∧
  t.port.requests = s.port.requests ∧ t.port.draws = s.port.draws

/-- The step ended with `pc` at `a` and outcome `Normal` (40_step_cycle.md R74). -/
def EndsNormallyAt (a : Addr) (t : State) : Prop := t.pc = a ∧ t.port.report = .step .normal

/-- Pixel `k` is selected by a 1 bit of the sprite that `DRW Vx,Vy,n` draws in `s`, in the words of 44_display.md R121. -/
def SpriteSelects (s : State) (x y : RegNo) (n : Nibble) (k : Nat) : Prop :=
  ∃ dy dx : Nat, dy < n.toNat ∧ dx < 8 ∧ (s.memRead (s.i.toNat + dy)).getLsbD (7 - dx) = true ∧
    k = ((s.readReg x).toNat % 64 + dx + ((s.readReg y).toNat % 32 + dy) * 64) % 2048

/-- Every architectural field has the value of 10_state.md R23. -/
def IsResetState (t : State) : Prop :=
  (∀ k, (h : k < 80) → t.memRead (0x050 + k) = config.font[k]) ∧
  (∀ a, a < 4096 → (a < 0x050 ∨ 0x0A0 ≤ a) → t.memRead a = 0) ∧
  (∀ r, t.readReg r = 0) ∧ t.i = 0 ∧ t.pc = 0x200 ∧ t.sp.val = 0 ∧
  (∀ k, (h : k < 16) → t.stack[k] = 0) ∧ t.dt = 0 ∧ t.st = 0 ∧
  (∀ k, (h : k < 2048) → t.fb[k] = false) ∧ (∀ k, t.readKey k = false) ∧ t.drawFlag = false

/-- The registers an instruction writes: its destination, and VF where it writes the flag (10_state.md R13). -/
def destRegs : Instr → List RegNo
  | .ldByte x _ | .addByte x _ | .ldReg x _ | .or x _ | .and x _ | .xor x _ | .rnd x _ | .ldFromDt x | .ldKey x => [x]
  | .addReg x _ | .sub x _ | .shr x _ | .subn x _ | .shl x _ => [x, VF]
  | .drw _ _ _ => [VF]
  | .loadRegs x => regsUpTo x
  | .cls | .ret | .jp _ | .call _ | .seByte _ _ | .sneByte _ _ | .seReg _ _ _ | .sneReg _ _ _ | .ldI _ | .skp _
  | .sknp _ | .ldDt _ | .ldSt _ | .addI _ | .ldF _ | .ldB _ | .storeRegs _ | .sysAddr _ | .jpV0 _ | .unknown _ => []

/-- The transition that `step` makes in `s` is a step of the executor, not another request of the host. -/
def StepsExecutor (s : State) : Prop := s.port.requests = [] ∨ ∃ rnd rs, s.port.requests = .step rnd :: rs

/-- Execute instructions one after the other, without fetching them. -/
def execSeq : List Instr → State → Result
  | [], s => .next s
  | i :: is, s =>
    match exec i s with
    | .next t => execSeq is t
    | .fault r => .fault r
    | .refused r => .refused r

/-- The cases of 93_implementation_defined.md in which the spec decides a value and recommends that a claim excludes the
case (log 6). -/
inductive OpenCase where
  /-- U1, U14: the step reports an Unknown word. -/
  | unknownWord
  /-- U1, U3: CALL on a full stack. -/
  | overflow
  /-- U1: RET on an empty stack. -/
  | underflow
  /-- U6: SKP or SKNP with `Vx` above 15. -/
  | keyAbove15
  /-- U7: an access or a fetch passes 0xFFF. -/
  | accessPastTop
  /-- U8: `pc` advances past 0xFFF. -/
  | pcPastTop
  /-- U9: an odd `pc`. -/
  | oddPc
  /-- U13: LD F,Vx with `Vx` above 15. -/
  | glyphAbove15
  /-- U16: 5xy_ or 9xy_ with a low nibble other than 0. -/
  | ignoredNibble
  deriving DecidableEq, Repr

/-- How many bytes from `I` on an instruction accesses (20_memory.md R36). -/
def accessBytes : Instr → Nat
  | .drw _ _ n => n.toNat
  | .ldB _ => 3
  | .storeRegs x | .loadRegs x => x.toNat + 1
  | .cls | .ret | .jp _ | .call _ | .seByte _ _ | .sneByte _ _ | .seReg _ _ _ | .ldByte _ _ | .addByte _ _
  | .ldReg _ _ | .or _ _ | .and _ _ | .xor _ _ | .addReg _ _ | .sub _ _ | .shr _ _ | .subn _ _ | .shl _ _
  | .sneReg _ _ _ | .ldI _ | .rnd _ _ | .skp _ | .sknp _ | .ldFromDt _ | .ldKey _ | .ldDt _ | .ldSt _ | .addI _
  | .ldF _ | .sysAddr _ | .jpV0 _ | .unknown _ => 0

/-- How far `pc` advances, for an instruction that advances it: 4 for a taken skip, 0 for one that sets `pc`, else 2
(40_step_cycle.md R73). -/
def advanceOf (i : Instr) (s : State) : Nat :=
  match i with
  | .jp _ => 0
  | .call _ => if s.sp.val = 16 then 2 else 0
  | .ret => if s.sp.val = 0 then 2 else 0
  | .seByte x kk => if s.readReg x = kk then 4 else 2
  | .sneByte x kk => if s.readReg x = kk then 2 else 4
  | .seReg x y _ => if s.readReg x = s.readReg y then 4 else 2
  | .sneReg x y _ => if s.readReg x = s.readReg y then 2 else 4
  | .skp x => if s.readKey (keyOf (s.readReg x)) then 4 else 2
  | .sknp x => if s.readKey (keyOf (s.readReg x)) then 2 else 4
  | .ldKey _ => if s.firstKey = none then 0 else 2
  | .cls | .ldByte _ _ | .addByte _ _ | .ldReg _ _ | .or _ _ | .and _ _ | .xor _ _ | .addReg _ _ | .sub _ _ | .shr _ _
  | .subn _ _ | .shl _ _ | .ldI _ | .rnd _ _ | .drw _ _ _ | .ldFromDt _ | .ldDt _ | .ldSt _ | .addI _ | .ldF _ | .ldB _
  | .storeRegs _ | .loadRegs _ | .sysAddr _ | .jpV0 _ | .unknown _ => 2

/-- The open cases of an instruction's own form and operands. -/
def formCases (i : Instr) (s : State) : List OpenCase :=
  match i with
  | .ret => if s.sp.val = 0 then [.underflow] else []
  | .call _ => if s.sp.val = 16 then [.overflow] else []
  | .skp x | .sknp x => if (s.readReg x).toNat > 15 then [.keyAbove15] else []
  | .ldF x => if (s.readReg x).toNat > 15 then [.glyphAbove15] else []
  | .seReg _ _ ign | .sneReg _ _ ign => if ign = 0 then [] else [.ignoredNibble]
  | .sysAddr _ | .jpV0 _ | .unknown _ => [.unknownWord]
  | .cls | .jp _ | .seByte _ _ | .sneByte _ _ | .ldByte _ _ | .addByte _ _ | .ldReg _ _ | .or _ _ | .and _ _ | .xor _ _
  | .addReg _ _ | .sub _ _ | .shr _ _ | .subn _ _ | .shl _ _ | .ldI _ | .rnd _ _ | .drw _ _ _ | .ldFromDt _ | .ldKey _
  | .ldDt _ | .ldSt _ | .addI _ | .ldB _ | .storeRegs _ | .loadRegs _ => []

/-- The open cases that a step of `i` in `s` falls under; a claim that wants to hold under any reading of the source
document proves that there are none. -/
def openCases (i : Instr) (s : State) : List OpenCase :=
  formCases i s ++
  (if s.i.toNat % memSize + accessBytes i > memSize ∨ s.pc = 0xFFF then [.accessPastTop] else []) ++
  (if s.pc.toNat + advanceOf i s ≥ memSize then [.pcPastTop] else []) ++
  (if s.pc.getLsbD 0 then [.oddPc] else [])

end Sys2Proof.Machine
end

