-- ==== Sys2Proof/Certificates/Slice0/Obligations.lean ====
section
/-! DEFINITION. The statements for the provers. Each docstring names the rule of spec/ it formalises, the spec's own
decisions (D<n>) that are part of that rule's text, and the model's own choices (log <n>) where a clause rests on one. -/

section Statements

open Sys2Proof
open Sys2Proof.Machine

/-! ## Encoding -/

/-- Decoding the word, or the bytes, of a well-formed instruction gives it back, every field at every value. Rests on
30_encoding.md R53 and R54; the opcode numbers are the spec's decision D2. -/
def Obligations.DecodeInvertsEncode : Prop :=
  ∀ (i : Instr) (rest : List Byte), i.wf = true →
    decodeWord (encode i) = i ∧ decode (encodeBytes i ++ rest) = .ok (i, rest)

/-- Every one of the 65536 words decodes to a well-formed instruction that encodes to that very word. Rests on
30_encoding.md R53 ("total on all 65536 words") and R54. -/
def Obligations.EncodeInvertsDecode : Prop :=
  ∀ w : Word, encode (decodeWord w) = w ∧ (decodeWord w).wf = true

/-- The decoder agrees with the opcode map read as masks: a word has a row's name exactly when `w & mask = match`, and is
Unknown exactly when no row matches it. Rests on 30_encoding.md R54 and R60. -/
def Obligations.DecodeFollowsOpcodeMap : Prop :=
  ∀ w : Word,
    (∀ row ∈ opcodeRows, (w &&& row.mask = row.key) ↔ (decodeWord w).mnemonic = row.mnemonic) ∧
    ((decodeWord w).isUnknown = true ↔ ∀ row ∈ opcodeRows, w &&& row.mask ≠ row.key)

/-- The Unknown class is the five rows of the table of 30_encoding.md R60 (the rule's counts are left out), with the
secondary keys of R55 to R58; its decisions are D1 and D3. -/
def Obligations.UnknownWordsAreThoseListed : Prop :=
  ∀ w : Word, (decodeWord w).isUnknown = true ↔
    (w.toNat < 0x1000 ∧ w ≠ 0x00E0#16 ∧ w ≠ 0x00EE#16) ∨
    (w.toNat / 0x1000 = 0x8 ∧ w.toNat % 0x10 ∈ [0x8, 0x9, 0xA, 0xB, 0xC, 0xD, 0xF]) ∨
    w.toNat / 0x1000 = 0xB ∨
    (w.toNat / 0x1000 = 0xE ∧ w.toNat % 0x100 ∉ [0x9E, 0xA1]) ∨
    (w.toNat / 0x1000 = 0xF ∧ w.toNat % 0x100 ∉ [0x07, 0x0A, 0x15, 0x18, 0x1E, 0x29, 0x33, 0x55, 0x65])

/-- One word or more of each of the sixteen families (00_scope.md R9: one value of the top nibble) decodes to the
instruction it stands for; most words are those of 95_test_vectors.md. That a single byte is refused as `truncated` is the
model's own choice (log 10): the spec's decoder takes whole words. -/
def Obligations.KnownWordsDecode : Prop :=
  decodeWord 0x00E0#16 = .cls ∧ decodeWord 0x00EE#16 = .ret ∧ decodeWord 0x0123#16 = .sysAddr 0x123#12 ∧
  decodeWord 0x1234#16 = .jp 0x234#12 ∧ decodeWord 0x2300#16 = .call 0x300#12 ∧
  decodeWord 0x332A#16 = .seByte 3#4 0x2A#8 ∧ decodeWord 0x432A#16 = .sneByte 3#4 0x2A#8 ∧
  decodeWord 0x5127#16 = .seReg 1#4 2#4 7#4 ∧ decodeWord 0x6A7F#16 = .ldByte 0xA#4 0x7F#8 ∧
  decodeWord 0x7220#16 = .addByte 2#4 0x20#8 ∧ decodeWord 0x8014#16 = .addReg 0#4 1#4 ∧
  decodeWord 0x9120#16 = .sneReg 1#4 2#4 0#4 ∧ decodeWord 0xA2F0#16 = .ldI 0x2F0#12 ∧
  decodeWord 0xB123#16 = .jpV0 0x123#12 ∧ decodeWord 0xC30F#16 = .rnd 3#4 0x0F#8 ∧
  decodeWord 0xD125#16 = .drw 1#4 2#4 5#4 ∧ decodeWord 0xE5A1#16 = .sknp 5#4 ∧ decodeWord 0xF30A#16 = .ldKey 3#4 ∧
  decodeWord 0xF218#16 = .ldSt 2#4 ∧ decodeWord 0xFFFF#16 = .unknown 0xFFFF#16 ∧
  decode [0xF2#8, 0x65#8, 0x12#8] = .ok (.loadRegs 2#4, [0x12#8]) ∧ decode [0xF2#8] = .error (.truncated 1)

/-! ## The step -/

/-- A step of the executor fetches the word at `pc`, high byte first and the second address mod 4096, and is `exec` of the
instruction it decodes to, with the step's input `rnd` and its output `outcome_word` set and nothing else changed
(40_step_cycle.md R70; the default `pc += 2` is in the statements on the instructions). With no request pending `rnd` is
a free byte (log 2), and a pending `step` request carries the host's (log 3). -/
def Obligations.StepRunsDecodedInstruction : Prop :=
  ∀ (s : State) (w : Word), w = s.memRead s.pc.toNat ++ s.memRead ((s.pc.toNat + 1) % 4096) →
    (s.port.requests = [] →
      step s = exec (decodeWord w)
        { s with port := { s.port with rnd := Config.rnd s.port.draws, outcomeWord := w, draws := s.port.draws + 1 } }) ∧
    (∀ rnd rs, s.port.requests = .step rnd :: rs →
      step s = exec (decodeWord w) { s with port := { s.port with rnd := rnd, outcomeWord := w, requests := rs } })

/-- No transition stops the machine: every state has a next one (40_step_cycle.md R77, 60_exceptions.md R161,
00_scope.md R5). -/
def Obligations.StepAlwaysAnswersNext : Prop :=
  (∀ s : State, ∃ t, step s = .next t) ∧ ∀ (i : Instr) (s : State), ∃ t, exec i s = .next t

/-- Every transition keeps memory in its canonical form, whatever the instruction or the host's request. The form is the
model's own (log 8); the transitions are those of 00_scope.md R2. -/
def Obligations.MemoryStaysCanonical : Prop :=
  ∀ s t : State, s.Inv → step s = .next t → t.Inv

/-- Reset memory is in canonical form (the model's own form of memory, log 8). -/
def Obligations.ResetMemoryIsCanonical : Prop := State.reset.Inv

/-- Two canonical memories that agree on every cell are equal data (the model's own form of memory, log 8). -/
def Obligations.CanonicalMemoriesAreEqual : Prop :=
  ∀ m m' : Memory, m.wf = true → m'.wf = true → (∀ a, a < 4096 → cellAt m a = cellAt m' a) → m = m'

/-- Every field after reset (10_state.md R23; `pc` is decision D5, the font bytes are the parameter of D15). -/
def Obligations.ResetState : Prop := IsResetState State.reset

/-- What `pc` and the outcome are after each instruction, in every state (40_step_cycle.md R73; `pc` is mod 4096 by
decision D4). It says also that every instruction answers a next state. -/
def Obligations.PcAndOutcomeOfEachInstruction : Prop :=
  ∀ (i : Instr) (s : State), ∃ t, exec i s = .next t ∧
    (t.pc, t.port.report) =
      match i with
      | .jp nnn => (nnn, .step .normal)
      | .call nnn => if s.sp.val = 16 then (s.pc + 2, .step .stackOverflow) else (nnn, .step .normal)
      | .ret => if s.sp.val = 0 then (s.pc + 2, .step .stackUnderflow) else (s.stack[s.sp.val - 1], .step .normal)
      | .seByte x kk => (if s.readReg x = kk then s.pc + 4 else s.pc + 2, .step .normal)
      | .sneByte x kk => (if s.readReg x ≠ kk then s.pc + 4 else s.pc + 2, .step .normal)
      | .seReg x y _ => (if s.readReg x = s.readReg y then s.pc + 4 else s.pc + 2, .step .normal)
      | .sneReg x y _ => (if s.readReg x ≠ s.readReg y then s.pc + 4 else s.pc + 2, .step .normal)
      | .skp x => (if s.readKey ((s.readReg x).setWidth 4) then s.pc + 4 else s.pc + 2, .step .normal)
      | .sknp x => (if s.readKey ((s.readReg x).setWidth 4) then s.pc + 2 else s.pc + 4, .step .normal)
      | .ldKey _ => if ∀ k, s.readKey k = false then (s.pc, .step .blockedOnKey) else (s.pc + 2, .step .normal)
      | .sysAddr _ | .jpV0 _ | .unknown _ => (s.pc + 2, .step (.unknownOpcode (encode i)))
      | .cls | .ldByte _ _ | .addByte _ _ | .ldReg _ _ | .or _ _ | .and _ _ | .xor _ _ | .addReg _ _ | .sub _ _
      | .shr _ _ | .subn _ _ | .shl _ _ | .ldI _ | .rnd _ _ | .drw _ _ _ | .ldFromDt _ | .ldDt _ | .ldSt _ | .addI _
      | .ldF _ | .ldB _ | .storeRegs _ | .loadRegs _ => (s.pc + 2, .step .normal)

/-- The frame of a step (40_step_cycle.md R75): only the instruction's own registers and `I` change; no step changes the
keypad; only CLS and DRW change the framebuffer and the draw flag; only LD B and LD [I],Vx change memory; only CALL and RET
the stack; only LD DT and LD ST the timers; an error outcome changes `pc` only. -/
def Obligations.StepFrame : Prop :=
  ∀ (s t : State) (i : Instr), StepsExecutor s → i = decodeWord s.fetchWord → step s = .next t →
    t.keypad = s.keypad ∧
    (∀ r, r ∉ destRegs i → t.readReg r = s.readReg r) ∧
    ((∀ a, i ≠ .ldI a) → (∀ x, i ≠ .addI x) → (∀ x, i ≠ .ldF x) → t.i = s.i) ∧
    (i ≠ .cls → (∀ x y n, i ≠ .drw x y n) → t.fb = s.fb ∧ t.drawFlag = s.drawFlag) ∧
    ((∀ x, i ≠ .ldB x) → (∀ x, i ≠ .storeRegs x) → t.mem = s.mem) ∧
    (i ≠ .ret → (∀ a, i ≠ .call a) → t.stack = s.stack ∧ t.sp = s.sp) ∧
    ((∀ x, i ≠ .ldDt x) → t.dt = s.dt) ∧
    ((∀ x, i ≠ .ldSt x) → t.st = s.st) ∧
    (∀ o, t.port.report = .step o → o.isError = true → t = { s with pc := s.pc + 2, port := t.port })

/-- The three error cases (RET on an empty stack, CALL on a full one, an Unknown word) complete, in every state; an error
outcome, in whatever way it came, changes `pc` only, which advances by 2; and nothing is latched: the report of an earlier
transition influences no later instruction (60_exceptions.md R161). That the outcome stands in `port.report`, and that the
other port fields stay, is the model's choice (log 4). -/
def Obligations.ErrorsChangeOnlyPc : Prop :=
  (∀ (i : Instr) (s : State),
    (i = .ret ∧ s.sp.val = 0) ∨ (∃ nnn, i = .call nnn ∧ s.sp.val = 16) ∨ i.isUnknown = true →
    ∃ t o, exec i s = .next t ∧ t.port.report = .step o ∧ o.isError = true) ∧
  (∀ (i : Instr) (s t : State) (o : StepOutcome), exec i s = .next t → t.port.report = .step o → o.isError = true →
    t = { s with pc := s.pc + 2, port := { s.port with report := .step o } }) ∧
  ∀ (i : Instr) (s : State) (r : Report), exec i { s with port := { s.port with report := r } } = exec i s

/-- VF after each instruction: the flag of the six instructions that write it, and otherwise VF changes only as the named
destination (10_state.md R13). -/
def Obligations.OnlyFlagWritersAndDestinationsChangeVF : Prop :=
  ∀ (i : Instr) (s t : State), exec i s = .next t →
    match i with
    | .addReg x y => t.readReg VF = if (s.readReg x).toNat + (s.readReg y).toNat > 255 then 1 else 0
    | .sub x y => t.readReg VF = if s.readReg y ≤ s.readReg x then 1 else 0
    | .shr x _ => (t.readReg VF).toNat = (s.readReg x).toNat % 2
    | .subn x y => t.readReg VF = if s.readReg x ≤ s.readReg y then 1 else 0
    | .shl x _ => (t.readReg VF).toNat = (s.readReg x).toNat / 128
    | .drw _ _ _ =>
      (t.readReg VF = 1 ∧ ∃ k, ∃ h : k < 2048, s.fb[k] = true ∧ t.fb[k] = false) ∨
      (t.readReg VF = 0 ∧ ∀ k, (h : k < 2048) → s.fb[k] = true → t.fb[k] = true)
    | .ldByte x _ | .addByte x _ | .ldReg x _ | .or x _ | .and x _ | .xor x _ | .rnd x _ | .ldFromDt x | .ldKey x
    | .loadRegs x => x ≠ VF → t.readReg VF = s.readReg VF
    | .cls | .ret | .jp _ | .call _ | .seByte _ _ | .sneByte _ _ | .seReg _ _ _ | .sneReg _ _ _ | .ldI _ | .skp _
    | .sknp _ | .ldDt _ | .ldSt _ | .addI _ | .ldF _ | .ldB _ | .storeRegs _ | .sysAddr _ | .jpV0 _ | .unknown _ =>
      t.readReg VF = s.readReg VF

/-! ## Control transfer -/

/-- RET (41_control_flow.md R80): pops into `pc`, or reports `StackUnderflow` and advances by 2. -/
def Obligations.RetPopsOrReportsUnderflow : Prop :=
  decodeWord 0x00EE#16 = .ret ∧
  ∀ s : State, ∃ t, exec .ret s = .next t ∧ Unchanged [] [.stack] [] s t ∧ t.stack = s.stack ∧
    (s.sp.val = 0 → t.sp = s.sp ∧ t.pc = s.pc + 2 ∧ t.port.report = .step .stackUnderflow) ∧
    (∀ k, (h : k < 16) → s.sp.val = k + 1 → t.sp.val = k ∧ EndsNormallyAt s.stack[k] t)

/-- JP addr (41_control_flow.md R81). -/
def Obligations.JpJumps : Prop :=
  ∀ (nnn : Addr) (s : State), decodeWord (0x1#4 ++ nnn) = .jp nnn ∧
    ∃ t, exec (.jp nnn) s = .next t ∧ Unchanged [] [] [] s t ∧ EndsNormallyAt nnn t

/-- CALL addr (41_control_flow.md R82): pushes the address after itself, or reports `StackOverflow`, pushes nothing, does
not jump and advances by 2 (decision D13, part of the rule). -/
def Obligations.CallPushesOrReportsOverflow : Prop :=
  ∀ (nnn : Addr) (s : State), decodeWord (0x2#4 ++ nnn) = .call nnn ∧
    ∃ t, exec (.call nnn) s = .next t ∧ Unchanged [] [.stack] [] s t ∧
      (s.sp.val = 16 →
        t.stack = s.stack ∧ t.sp = s.sp ∧ t.pc = s.pc + 2 ∧ t.port.report = .step .stackOverflow) ∧
      (∀ h : s.sp.val < 16,
        t.stack = s.stack.set s.sp.val (s.pc + 2) ∧ t.sp.val = s.sp.val + 1 ∧ EndsNormallyAt nnn t)

/-- SE Vx,byte and SNE Vx,byte (41_control_flow.md R83, R84; the conditions are decision D32, part of the rules). -/
def Obligations.SkipsOnByte : Prop :=
  ∀ (x : RegNo) (kk : Byte) (s : State),
    decodeWord ((0x3#4 ++ x) ++ kk) = .seByte x kk ∧ decodeWord ((0x4#4 ++ x) ++ kk) = .sneByte x kk ∧
    (∃ t, exec (.seByte x kk) s = .next t ∧ Unchanged [] [] [] s t ∧
      EndsNormallyAt (if s.readReg x = kk then s.pc + 4 else s.pc + 2) t) ∧
    (∃ t, exec (.sneByte x kk) s = .next t ∧ Unchanged [] [] [] s t ∧
      EndsNormallyAt (if s.readReg x ≠ kk then s.pc + 4 else s.pc + 2) t)

/-- SE Vx,Vy and SNE Vx,Vy, with any low nibble (41_control_flow.md R85, R86; D3 and D32 are part of the rules). -/
def Obligations.SkipsOnRegisters : Prop :=
  ∀ (x y : RegNo) (ign : Nibble) (s : State),
    decodeWord ((0x5#4 ++ x) ++ (y ++ ign)) = .seReg x y ign ∧
    decodeWord ((0x9#4 ++ x) ++ (y ++ ign)) = .sneReg x y ign ∧
    (∃ t, exec (.seReg x y ign) s = .next t ∧ Unchanged [] [] [] s t ∧
      EndsNormallyAt (if s.readReg x = s.readReg y then s.pc + 4 else s.pc + 2) t) ∧
    (∃ t, exec (.sneReg x y ign) s = .next t ∧ Unchanged [] [] [] s t ∧
      EndsNormallyAt (if s.readReg x ≠ s.readReg y then s.pc + 4 else s.pc + 2) t)

/-- "CALL then RET returns `pc` to the instruction immediately following the CALL, for arbitrarily nested (bounded-depth)
call sequences" (quoted in 41_control_flow.md R82): any calls that fit on the stack, followed by as many returns, end
after the first CALL with the old entries of the stack intact. -/
def Obligations.NestedCallsReturn : Prop :=
  ∀ (as : List Addr) (s : State), as ≠ [] → s.sp.val + as.length ≤ 16 →
    ∃ t, execSeq (as.map .call ++ List.replicate as.length .ret) s = .next t ∧ EndsNormallyAt (s.pc + 2) t ∧
      t.sp = s.sp ∧ (∀ k, (h : k < s.sp.val) → t.stack[k] = s.stack[k]) ∧ Unchanged [] [.stack] [] s t

/-! ## Register load, arithmetic, logic, shift, random -/

/-- LD Vx,byte and ADD Vx,byte (42_alu.md R90, R92): no flag. -/
def Obligations.LoadAndAddByte : Prop :=
  ∀ (x : RegNo) (kk : Byte) (s : State),
    decodeWord ((0x6#4 ++ x) ++ kk) = .ldByte x kk ∧ decodeWord ((0x7#4 ++ x) ++ kk) = .addByte x kk ∧
    (∃ t, exec (.ldByte x kk) s = .next t ∧ t.readReg x = kk ∧ Unchanged [x] [] [] s t ∧
      EndsNormallyAt (s.pc + 2) t) ∧
    (∃ t, exec (.addByte x kk) s = .next t ∧ (t.readReg x).toNat = ((s.readReg x).toNat + kk.toNat) % 256 ∧
      Unchanged [x] [] [] s t ∧ EndsNormallyAt (s.pc + 2) t)

/-- LD Vx,Vy, OR, AND, XOR (42_alu.md R93, R94, R95, R101): no flag (decision D9, part of the rules). -/
def Obligations.CopyAndLogic : Prop :=
  ∀ (x y : RegNo) (s : State),
    decodeWord ((0x8#4 ++ x) ++ (y ++ 0x0#4)) = .ldReg x y ∧ decodeWord ((0x8#4 ++ x) ++ (y ++ 0x1#4)) = .or x y ∧
    decodeWord ((0x8#4 ++ x) ++ (y ++ 0x2#4)) = .and x y ∧ decodeWord ((0x8#4 ++ x) ++ (y ++ 0x3#4)) = .xor x y ∧
    (∃ t, exec (.ldReg x y) s = .next t ∧ t.readReg x = s.readReg y ∧ Unchanged [x] [] [] s t ∧
      EndsNormallyAt (s.pc + 2) t) ∧
    (∃ t, exec (.or x y) s = .next t ∧ t.readReg x = s.readReg x ||| s.readReg y ∧ Unchanged [x] [] [] s t ∧
      EndsNormallyAt (s.pc + 2) t) ∧
    (∃ t, exec (.and x y) s = .next t ∧ t.readReg x = s.readReg x &&& s.readReg y ∧ Unchanged [x] [] [] s t ∧
      EndsNormallyAt (s.pc + 2) t) ∧
    (∃ t, exec (.xor x y) s = .next t ∧ t.readReg x = s.readReg x ^^^ s.readReg y ∧ Unchanged [x] [] [] s t ∧
      EndsNormallyAt (s.pc + 2) t)

/-- ADD Vx,Vy (42_alu.md R96): VF is the carry, written last, so it wins when `x = F`. -/
def Obligations.AddSetsCarry : Prop :=
  ∀ (x y : RegNo) (s : State), decodeWord ((0x8#4 ++ x) ++ (y ++ 0x4#4)) = .addReg x y ∧
    ∃ t, exec (.addReg x y) s = .next t ∧
      (x ≠ VF → (t.readReg x).toNat = ((s.readReg x).toNat + (s.readReg y).toNat) % 256) ∧
      t.readReg VF = (if (s.readReg x).toNat + (s.readReg y).toNat > 255 then 1 else 0) ∧
      Unchanged [x, VF] [] [] s t ∧ EndsNormallyAt (s.pc + 2) t

/-- SUB Vx,Vy and SUBN Vx,Vy (42_alu.md R97, R99): VF is "no borrow", written last. -/
def Obligations.SubtractionsSetNoBorrow : Prop :=
  ∀ (x y : RegNo) (s : State),
    decodeWord ((0x8#4 ++ x) ++ (y ++ 0x5#4)) = .sub x y ∧ decodeWord ((0x8#4 ++ x) ++ (y ++ 0x7#4)) = .subn x y ∧
    (∃ t, exec (.sub x y) s = .next t ∧
      (x ≠ VF → (t.readReg x).toNat = ((s.readReg x).toNat + 256 - (s.readReg y).toNat) % 256) ∧
      t.readReg VF = (if (s.readReg x).toNat ≥ (s.readReg y).toNat then 1 else 0) ∧
      Unchanged [x, VF] [] [] s t ∧ EndsNormallyAt (s.pc + 2) t) ∧
    (∃ t, exec (.subn x y) s = .next t ∧
      (x ≠ VF → (t.readReg x).toNat = ((s.readReg y).toNat + 256 - (s.readReg x).toNat) % 256) ∧
      t.readReg VF = (if (s.readReg y).toNat ≥ (s.readReg x).toNat then 1 else 0) ∧
      Unchanged [x, VF] [] [] s t ∧ EndsNormallyAt (s.pc + 2) t)

/-- SHR Vx and SHL Vx, with any `y` (42_alu.md R98, R100): VF is the bit shifted out, written last. -/
def Obligations.ShiftsSetShiftedOutBit : Prop :=
  ∀ (x y : RegNo) (s : State),
    decodeWord ((0x8#4 ++ x) ++ (y ++ 0x6#4)) = .shr x y ∧ decodeWord ((0x8#4 ++ x) ++ (y ++ 0xE#4)) = .shl x y ∧
    (∃ t, exec (.shr x y) s = .next t ∧ (x ≠ VF → (t.readReg x).toNat = (s.readReg x).toNat / 2) ∧
      (t.readReg VF).toNat = (s.readReg x).toNat % 2 ∧ Unchanged [x, VF] [] [] s t ∧ EndsNormallyAt (s.pc + 2) t) ∧
    (∃ t, exec (.shl x y) s = .next t ∧ (x ≠ VF → (t.readReg x).toNat = (s.readReg x).toNat * 2 % 256) ∧
      (t.readReg VF).toNat = (s.readReg x).toNat / 128 ∧ Unchanged [x, VF] [] [] s t ∧ EndsNormallyAt (s.pc + 2) t)

/-- RND Vx,byte (42_alu.md R103), for every value of the input `rnd`; every bit that is 0 in `kk` is 0 in the result. -/
def Obligations.RndMasksDraw : Prop :=
  ∀ (x : RegNo) (kk rnd : Byte) (s : State), decodeWord ((0xC#4 ++ x) ++ kk) = .rnd x kk ∧
    ∃ t, exec (.rnd x kk) { s with port := { s.port with rnd := rnd } } = .next t ∧ t.readReg x = rnd &&& kk ∧
      (∀ b, kk.getLsbD b = false → (t.readReg x).getLsbD b = false) ∧
      Unchanged [x] [] [] { s with port := { s.port with rnd := rnd } } t ∧ EndsNormallyAt (s.pc + 2) t

/-! ## Index register and memory -/

/-- LD I,addr, ADD I,Vx and LD F,Vx (43_index_memory.md R110, R111, R112; D7 and D31 are part of the rules). -/
def Obligations.IndexLoads : Prop :=
  ∀ (nnn : Addr) (x : RegNo) (s : State),
    decodeWord (0xA#4 ++ nnn) = .ldI nnn ∧ decodeWord ((0xF#4 ++ x) ++ 0x1E#8) = .addI x ∧
    decodeWord ((0xF#4 ++ x) ++ 0x29#8) = .ldF x ∧
    (∃ t, exec (.ldI nnn) s = .next t ∧ t.i.toNat = nnn.toNat ∧ Unchanged [] [.index] [] s t ∧
      EndsNormallyAt (s.pc + 2) t) ∧
    (∃ t, exec (.addI x) s = .next t ∧ t.i.toNat = (s.i.toNat + (s.readReg x).toNat) % 65536 ∧
      Unchanged [] [.index] [] s t ∧ EndsNormallyAt (s.pc + 2) t) ∧
    (∃ t, exec (.ldF x) s = .next t ∧ t.i.toNat = 0x050 + 5 * (s.readReg x).toNat ∧ Unchanged [] [.index] [] s t ∧
      EndsNormallyAt (s.pc + 2) t)

/-- LD B,Vx (43_index_memory.md R113): the three digits at `I`, `I + 1`, `I + 2`, addresses mod 4096 (D6); no other byte
changes. -/
def Obligations.BcdStoresDigits : Prop :=
  ∀ (x : RegNo) (s : State), s.Inv → decodeWord ((0xF#4 ++ x) ++ 0x33#8) = .ldB x ∧
    ∃ t, exec (.ldB x) s = .next t ∧
      (t.memRead (s.itemAddr 0)).toNat = (s.readReg x).toNat / 100 ∧
      (t.memRead (s.itemAddr 1)).toNat = (s.readReg x).toNat / 10 % 10 ∧
      (t.memRead (s.itemAddr 2)).toNat = (s.readReg x).toNat % 10 ∧
      (∀ k, s.itemAddr k = (s.i.toNat + k) % 4096) ∧
      Unchanged [] [] [s.itemAddr 0, s.itemAddr 1, s.itemAddr 2] s t ∧ EndsNormallyAt (s.pc + 2) t

/-- LD [I],Vx (43_index_memory.md R114): V0 to Vx at `I` to `I + x`, addresses mod 4096; no other byte changes, and `I`
does not (D10). -/
def Obligations.StoreRegistersToMemory : Prop :=
  ∀ (x : RegNo) (s : State), s.Inv → decodeWord ((0xF#4 ++ x) ++ 0x55#8) = .storeRegs x ∧
    ∃ t, exec (.storeRegs x) s = .next t ∧
      (∀ r : RegNo, r.toNat ≤ x.toNat → t.memRead (s.itemAddr r.toNat) = s.readReg r) ∧
      (∀ k, s.itemAddr k = (s.i.toNat + k) % 4096) ∧
      Unchanged [] [] ((List.range (x.toNat + 1)).map s.itemAddr) s t ∧ EndsNormallyAt (s.pc + 2) t

/-- LD Vx,[I] (43_index_memory.md R115): V0 to Vx from `I` to `I + x`; no other register changes, nor `I` (D10). -/
def Obligations.LoadRegistersFromMemory : Prop :=
  ∀ (x : RegNo) (s : State), decodeWord ((0xF#4 ++ x) ++ 0x65#8) = .loadRegs x ∧
    ∃ t, exec (.loadRegs x) s = .next t ∧
      (∀ r : RegNo, r.toNat ≤ x.toNat → t.readReg r = s.memRead ((s.i.toNat + r.toNat) % 4096)) ∧
      (∀ r : RegNo, x.toNat < r.toNat → t.readReg r = s.readReg r) ∧
      Unchanged (regsUpTo x) [] [] s t ∧ EndsNormallyAt (s.pc + 2) t

/-- What LD [I],Vx stores is what the next fetch of those addresses reads (20_memory.md R40). -/
def Obligations.StoredBytesAreFetchedNext : Prop :=
  ∀ (x : RegNo) (s t : State) (k : Nat), s.Inv → exec (.storeRegs x) s = .next t → k + 1 ≤ x.toNat →
    (t.writePc (BitVec.ofNat 12 (s.itemAddr k))).fetchWord =
      s.readReg (BitVec.ofNat 4 k) ++ s.readReg (BitVec.ofNat 4 (k + 1))

/-! ## Display -/

/-- CLS (44_display.md R120): VF is not written; the draw flag is set unconditionally (C3). -/
def Obligations.ClsClearsScreen : Prop :=
  decodeWord 0x00E0#16 = .cls ∧
  ∀ s : State, ∃ t, exec .cls s = .next t ∧ (∀ k, (h : k < 2048) → t.fb[k] = false) ∧ t.drawFlag = true ∧
    Unchanged [] [.screen, .drawFlag] [] s t ∧ EndsNormallyAt (s.pc + 2) t

/-- DRW Vx,Vy,n (44_display.md R121), pixel by pixel: a pixel is toggled exactly when a 1 bit of the sprite selects it,
and VF is 1 exactly when a selected pixel was 1. That a selected pixel is toggled once and no other, and that VF is about
the old pixels, is the spec's own inference, R121 corner case 4: "Within one DRW no pixel is touched twice", "`hit` is 1
exactly when some sprite bit that is 1 met a pixel that was 1 before the instruction [derived: from the pseudocode]". The bit
order is D14, the wrap of addresses D6, part of the rule. -/
def Obligations.DrwXorsSprite : Prop :=
  ∀ (x y : RegNo) (n : Nibble) (s : State), decodeWord ((0xD#4 ++ x) ++ (y ++ n)) = .drw x y n ∧
    ∃ t, exec (.drw x y n) s = .next t ∧
      (∀ k, (h : k < 2048) → (SpriteSelects s x y n k → t.fb[k] = !s.fb[k]) ∧
        (¬ SpriteSelects s x y n k → t.fb[k] = s.fb[k])) ∧
      ((∃ k, ∃ h : k < 2048, SpriteSelects s x y n k ∧ s.fb[k] = true) → t.readReg VF = 1) ∧
      ((∀ k, (h : k < 2048) → SpriteSelects s x y n k → s.fb[k] = false) → t.readReg VF = 0) ∧
      t.drawFlag = true ∧ Unchanged [VF] [.screen, .drawFlag] [] s t ∧ EndsNormallyAt (s.pc + 2) t

/-- DRW is its own inverse (44_display.md R122, whose precise form is the spec's own derivation): a second DRW of the same
sprite at the same position restores the framebuffer; VF after the first says whether a selected pixel was 1, after the
second whether one was 0. -/
def Obligations.DrwTwiceRestoresScreen : Prop :=
  ∀ (x y x' y' : RegNo) (n : Nibble) (s t u v : State),
    exec (.drw x y n) s = .next t → exec (.drw x' y' n) u = .next v → u.fb = t.fb → u.i = s.i →
    (u.readReg x').toNat % 64 = (s.readReg x).toNat % 64 → (u.readReg y').toNat % 32 = (s.readReg y).toNat % 32 →
    (∀ dy, dy < n.toNat → u.memRead (s.i.toNat + dy) = s.memRead (s.i.toNat + dy)) →
    v.fb = s.fb ∧
    (t.readReg VF = 1 ↔ ∃ k, ∃ h : k < 2048, SpriteSelects s x y n k ∧ s.fb[k] = true) ∧
    (v.readReg VF = 1 ↔ ∃ k, ∃ h : k < 2048, SpriteSelects s x y n k ∧ s.fb[k] = false)

/-! ## Keypad and timers -/

/-- SKP Vx and SKNP Vx (45_keypad.md R130, R131; the low four bits of `Vx` are decision D11, part of the rules). -/
def Obligations.SkipsOnKey : Prop :=
  ∀ (x : RegNo) (s : State),
    decodeWord ((0xE#4 ++ x) ++ 0x9E#8) = .skp x ∧ decodeWord ((0xE#4 ++ x) ++ 0xA1#8) = .sknp x ∧
    (∃ t, exec (.skp x) s = .next t ∧ Unchanged [] [] [] s t ∧
      EndsNormallyAt (if s.readKey (BitVec.ofNat 4 ((s.readReg x).toNat % 16)) = true then s.pc + 4 else s.pc + 2) t) ∧
    (∃ t, exec (.sknp x) s = .next t ∧ Unchanged [] [] [] s t ∧
      EndsNormallyAt (if s.readKey (BitVec.ofNat 4 ((s.readReg x).toNat % 16)) = false then s.pc + 4 else s.pc + 2) t)

/-- LD Vx,K (45_keypad.md R132): the least pressed key, or, with none pressed, `BlockedOnKey` and no change at all. -/
def Obligations.KeyWaitTakesLeastKey : Prop :=
  ∀ (x : RegNo) (s : State), decodeWord ((0xF#4 ++ x) ++ 0x0A#8) = .ldKey x ∧
    ((∀ k, s.readKey k = false) →
      ∃ t, exec (.ldKey x) s = .next t ∧ t = { s with port := { s.port with report := .step .blockedOnKey } }) ∧
    (∀ k : RegNo, s.readKey k = true → (∀ j : RegNo, j.toNat < k.toNat → s.readKey j = false) →
      ∃ t, exec (.ldKey x) s = .next t ∧ (t.readReg x).toNat = k.toNat ∧ Unchanged [x] [] [] s t ∧
        EndsNormallyAt (s.pc + 2) t)

/-- "`LD Vx,K` with no key pressed leaves `pc` and `Vx` unchanged across repeated `step` calls" (quoted in 45_keypad.md
R132): any run of pending `step` requests of the host, whatever their `rnd`, at a key-wait with no key pressed changes no state
of the machine, and the last one reports `BlockedOnKey`. The second clause says the same of any number of transitions with no
request pending. That requests stand in a list, are taken off it, and that the executor steps when it is empty is the model's
choice (log 3); the report is a port field (log 4); a run is a count of transitions (log 9). -/
def Obligations.KeyWaitRepeats : Prop :=
  (∀ (rnds : List Byte) (rs : List Request) (x : RegNo) (s : State), s.port.requests = rnds.map .step ++ rs →
    (∀ k, s.readKey k = false) → decodeWord s.fetchWord = .ldKey x →
    ∃ t, Host.Core.run Sys2Proof.core rnds.length s = .next t ∧ t = { s with port := t.port } ∧ t.port.requests = rs ∧
      (rnds ≠ [] → t.port.report = .step .blockedOnKey)) ∧
  ∀ (n : Nat) (x : RegNo) (s : State), s.port.requests = [] → (∀ k, s.readKey k = false) →
    decodeWord s.fetchWord = .ldKey x →
    ∃ t, Host.Core.run Sys2Proof.core (n + 1) s = .next t ∧ t = { s with port := t.port } ∧
      t.port.report = .step .blockedOnKey ∧ t.port.requests = []

/-- LD Vx,DT, LD DT,Vx and LD ST,Vx (46_timers.md R140, R141, R142): no beep, which only a tick raises. -/
def Obligations.TimerTransfers : Prop :=
  ∀ (x : RegNo) (s : State),
    decodeWord ((0xF#4 ++ x) ++ 0x07#8) = .ldFromDt x ∧ decodeWord ((0xF#4 ++ x) ++ 0x15#8) = .ldDt x ∧
    decodeWord ((0xF#4 ++ x) ++ 0x18#8) = .ldSt x ∧
    (∃ t, exec (.ldFromDt x) s = .next t ∧ t.readReg x = s.dt ∧ Unchanged [x] [] [] s t ∧
      EndsNormallyAt (s.pc + 2) t) ∧
    (∃ t, exec (.ldDt x) s = .next t ∧ t.dt = s.readReg x ∧ Unchanged [] [.delayTimer] [] s t ∧
      EndsNormallyAt (s.pc + 2) t) ∧
    (∃ t, exec (.ldSt x) s = .next t ∧ t.st = s.readReg x ∧ Unchanged [] [.soundTimer] [] s t ∧
      EndsNormallyAt (s.pc + 2) t)

/-- `tick` (60_exceptions.md R170): each timer above 0 counts down by 1, a timer at 0 stays, `beep` exactly when ST was 1,
and nothing else changes. The model's choice: the request is the oldest pending one and is taken off the list (log 3), and
the beep stands in `port.report` while the other port fields stay (log 4). -/
def Obligations.TickCountsDown : Prop :=
  ∀ (s : State) (rs : List Request), s.port.requests = .tick :: rs →
    ∃ t, step s = .next t ∧ t.dt.toNat = s.dt.toNat - 1 ∧ t.st.toNat = s.st.toNat - 1 ∧
      (t.port.report = .tick true ↔ s.st = 1) ∧ (t.port.report = .tick false ↔ s.st ≠ 1) ∧
      t = { s with dt := t.dt, st := t.st, port := { s.port with report := t.port.report, requests := rs } }

/-- "Set to `v`, a timer reaches 0 after exactly `v` ticks" (60_exceptions.md R171): after `n` ticks a timer is `n` lower,
and never below 0. The model's choice: the ticks are the oldest pending requests and are taken off the list (log 3); a run is
a count of transitions (log 9). -/
def Obligations.TimersReachZeroAfterTheirValue : Prop :=
  ∀ (n : Nat) (s : State) (rs : List Request), s.port.requests = List.replicate n .tick ++ rs →
    ∃ t, Host.Core.run Sys2Proof.core n s = .next t ∧ t.dt.toNat = s.dt.toNat - n ∧ t.st.toNat = s.st.toNat - n ∧
      t = { s with dt := t.dt, st := t.st, port := t.port } ∧ t.port.requests = rs

/-! ## Unknown words -/

/-- Unknown(w), `SYS addr` and `JP V0,addr` (47_unknown.md R150, R151, R152; decision D1 is part of the rules): `pc`
advances by 2, the word is reported, nothing else changes. The last clause says the same of a step, with its output
`outcome_word`. The model's choice there: a step of the executor is one with no request pending or with a `step` request
oldest (log 3), and the outcome and `outcome_word` stand in port fields (log 4). -/
def Obligations.UnknownWordsAreReported : Prop :=
  ∀ (w : Word) (nnn : Addr) (s : State),
    (unassignedWord w = true → decodeWord w = .unknown w) ∧
    (nnn ≠ 0x0E0#12 → nnn ≠ 0x0EE#12 → decodeWord (0x0#4 ++ nnn) = .sysAddr nnn) ∧
    decodeWord (0xB#4 ++ nnn) = .jpV0 nnn ∧
    (∃ t, exec (.unknown w) s = .next t ∧ Unchanged [] [] [] s t ∧ t.pc = s.pc + 2 ∧
      t.port.report = .step (.unknownOpcode w)) ∧
    (∃ t, exec (.sysAddr nnn) s = .next t ∧ Unchanged [] [] [] s t ∧ t.pc = s.pc + 2 ∧
      t.port.report = .step (.unknownOpcode (0x0#4 ++ nnn))) ∧
    (∃ t, exec (.jpV0 nnn) s = .next t ∧ Unchanged [] [] [] s t ∧ t.pc = s.pc + 2 ∧
      t.port.report = .step (.unknownOpcode (0xB#4 ++ nnn))) ∧
    (StepsExecutor s → (decodeWord s.fetchWord).isUnknown = true →
      ∃ t, step s = .next t ∧ t = { s with pc := s.pc + 2, port := t.port } ∧
        t.port.report = .step (.unknownOpcode s.fetchWord) ∧ t.port.outcomeWord = s.fetchWord)

/-! ## The host's operations -/

/-- `load(bytes)` (70_reset_and_hazards.md R193; D22 is part of the rule). The model's choice: the request is the
oldest pending one and is taken off the list (log 3), and the result stands in `port.report` (log 4). -/
def Obligations.LoadCopiesProgram : Prop :=
  ∀ (s : State) (bytes : List Byte) (rs : List Request), s.Inv → s.port.requests = .load bytes :: rs →
    ∃ t, step s = .next t ∧ t = { s with mem := t.mem, port := t.port } ∧ t.port.requests = rs ∧
      (3584 < bytes.length → t.mem = s.mem ∧ t.port.report = .load .programTooLarge) ∧
      (bytes.length ≤ 3584 → t.port.report = .load .ok ∧
        (∀ k, (h : k < bytes.length) → t.memRead (0x200 + k) = bytes[k]) ∧
        (∀ a, a < 4096 → (a < 0x200 ∨ 0x200 + bytes.length ≤ a) → t.memRead a = s.memRead a))

/-- `reset` (70_reset_and_hazards.md R190): from any state, every field at its reset value. The model's choice, which R190
does not say: the request is the oldest pending one, and the requests behind it (log 3) and the count of draws (log 2)
stay. -/
def Obligations.ResetPutsEveryField : Prop :=
  ∀ (s : State) (rs : List Request), s.port.requests = .reset :: rs →
    ∃ t, step s = .next t ∧ IsResetState t ∧ t.port.requests = rs ∧ t.port.draws = s.port.draws

/-- `key_write(k, b)` and `draw_clear` (60_exceptions.md R176, R177): nothing else changes. The model's choice: the
request is the oldest pending one and is taken off the list (log 3), and the report is `idle` while the other port fields
stay (log 4). -/
def Obligations.KeyWriteAndDrawClear : Prop :=
  ∀ (s : State) (rs : List Request),
    (∀ k b, s.port.requests = .keyWrite k b :: rs →
      ∃ t, step s = .next t ∧ t.readKey k = b ∧ (∀ j, j ≠ k → t.readKey j = s.readKey j) ∧
        t = { s with keypad := t.keypad, port := { s.port with report := .idle, requests := rs } }) ∧
    (s.port.requests = .drawClear :: rs →
      ∃ t, step s = .next t ∧
        t = { s with drawFlag := false, port := { s.port with report := .idle, requests := rs } })

/-- The host's reads give the pixels and the draw flag and change nothing (60_exceptions.md R178). The model's choice: the
request is the oldest pending one and is taken off the list (log 3), and the value read stands in `port.report` while the
other port fields, `outcomeWord` among them, stay (log 4). -/
def Obligations.HostReadsChangeNothing : Prop :=
  ∀ (s : State) (rs : List Request),
    (s.port.requests = .readFramebuffer :: rs →
      ∃ t, step s = .next t ∧
        t = { s with port := { s.port with report := .framebuffer s.fb, requests := rs } }) ∧
    (s.port.requests = .readDrawFlag :: rs →
      ∃ t, step s = .next t ∧ t = { s with port := { s.port with report := .drawFlag s.drawFlag, requests := rs } })

/-! ## Rules about the whole machine -/

/-- Who may write what (10_state.md R25): only the host's `key_write` and `reset` change the keypad; only `draw_clear` and
`reset` clear the draw flag; memory is changed only by a store of the executor, by `load` and by `reset`; registers, `I`,
`pc`, stack and framebuffer only by the executor and `reset`; the timers only by the executor, `tick` and `reset`. Which of
them a transition is follows the model's list of requests (log 3). -/
def Obligations.OwnershipOfState : Prop :=
  ∀ s t : State, step s = .next t →
    (t.keypad ≠ s.keypad → ∃ rs, (∃ k b, s.port.requests = .keyWrite k b :: rs) ∨ s.port.requests = .reset :: rs) ∧
    (s.drawFlag = true → t.drawFlag = false →
      ∃ rs, s.port.requests = .drawClear :: rs ∨ s.port.requests = .reset :: rs) ∧
    (t.mem ≠ s.mem →
      (∃ rs, (∃ bytes, s.port.requests = .load bytes :: rs) ∨ s.port.requests = .reset :: rs) ∨
      (StepsExecutor s ∧ ∃ x, decodeWord s.fetchWord = .ldB x ∨ decodeWord s.fetchWord = .storeRegs x)) ∧
    ((t.v ≠ s.v ∨ t.i ≠ s.i ∨ t.pc ≠ s.pc ∨ t.stack ≠ s.stack ∨ t.sp ≠ s.sp ∨ t.fb ≠ s.fb) →
      StepsExecutor s ∨ ∃ rs, s.port.requests = .reset :: rs) ∧
    ((t.dt ≠ s.dt ∨ t.st ≠ s.st) →
      StepsExecutor s ∨ ∃ rs, s.port.requests = .tick :: rs ∨ s.port.requests = .reset :: rs)

/-- Only SKP, SKNP and LD Vx,K read the keypad (10_state.md R10, R20): any other instruction does the same whatever keys
are pressed. -/
def Obligations.OnlyKeyInstructionsReadKeypad : Prop :=
  ∀ (i : Instr) (s : State) (kp : Vector Bool 16),
    (∀ x, i ≠ .skp x ∧ i ≠ .sknp x ∧ i ≠ .ldKey x) →
    ∃ t, exec i s = .next t ∧ exec i { s with keypad := kp } = .next { t with keypad := kp }

/-- "`rnd` is the 8-bit input ...; only RND reads it" (40_step_cycle.md R70): any other instruction does the same whatever
the draw. The input stands in `port.rnd`, a field of the model's own (log 2). -/
def Obligations.OnlyRndReadsDraw : Prop :=
  ∀ (i : Instr) (s : State) (r : Byte), (∀ x kk, i ≠ .rnd x kk) →
    ∃ t, exec i s = .next t ∧
      exec i { s with port := { s.port with rnd := r } } = .next { t with port := { t.port with rnd := r } }

/-- No instruction reads ST or the draw flag (10_state.md R18, R21): whatever they hold, every other field ends the same. -/
def Obligations.NothingReadsSoundTimerOrDrawFlag : Prop :=
  ∀ (i : Instr) (s : State) (b : Byte) (d : Bool),
    ∃ t u, exec i s = .next t ∧ exec i { s with st := b, drawFlag := d } = .next u ∧
      t = { u with st := t.st, drawFlag := t.drawFlag }

/-- Bits 15:12 of `I` reach nothing but `I` (10_state.md R14): two states that differ only in those bits end alike, but
for those bits. -/
def Obligations.IndexHighBitsAreUnobservable : Prop :=
  ∀ (i : Instr) (s : State) (j : Word), j.toNat % 4096 = s.i.toNat % 4096 →
    ∃ t u, exec i s = .next t ∧ exec i { s with i := j } = .next u ∧
      t = { u with i := t.i } ∧ u.i.toNat % 4096 = t.i.toNat % 4096

/-- `pc` even is no invariant of the machine (10_state.md R22; 20_memory.md R35): a step can take an even `pc` to an odd
one; every step of the executor at an odd `pc` where the two bytes from that odd address on are a word `6xkk` loads that `kk`
into that `Vx` and goes on at `pc + 2`; and such a state exists in which `Vx` held another value and the word at the even
address below is another. A step of the executor is one with no request pending or with a `step` request (log 3). -/
def Obligations.OddPcIsReachedAndExecutes : Prop :=
  (∃ s t : State, s.pc.toNat % 2 = 0 ∧ step s = .next t ∧ t.pc.toNat % 2 = 1) ∧
  (∀ (s : State) (x : RegNo) (kk : Byte), StepsExecutor s → s.pc.toNat % 2 = 1 → s.memRead s.pc.toNat = 0x6#4 ++ x →
    s.memRead ((s.pc.toNat + 1) % 4096) = kk →
    ∃ t, step s = .next t ∧ t.readReg x = kk ∧ EndsNormallyAt (s.pc + 2) t) ∧
  ∃ s : State, StepsExecutor s ∧ s.pc.toNat % 2 = 1 ∧ s.memRead s.pc.toNat = 0x60#8 ∧
    s.memRead (s.pc.toNat + 1) = 0x42#8 ∧ s.memRead (s.pc.toNat - 1) ≠ 0x60#8 ∧ s.readReg 0 ≠ 0x42#8

end Statements
end

