-- ==== Sys2Proof/Laws/Decode.lean ====
section
/-! SUPPORT. The fields of a packed word, and a word as its packed fields (30_encoding.md R51, R52). -/

namespace Sys2Proof

theorem toNat_packNNN (op : Nibble) (nnn : Addr) : (packNNN op nnn).toNat = op.toNat * 4096 + nnn.toNat := by
  have := nnn.isLt
  rw [packNNN, BitVec.toNat_append, ← Nat.shiftLeft_add_eq_or_of_lt (by omega), Nat.shiftLeft_eq]

theorem toNat_packXKK (op : Nibble) (x : RegNo) (kk : Byte) :
    (packXKK op x kk).toNat = op.toNat * 4096 + x.toNat * 256 + kk.toNat := by
  have := x.isLt
  have := kk.isLt
  rw [packXKK, BitVec.toNat_append, ← Nat.shiftLeft_add_eq_or_of_lt (by omega), BitVec.toNat_append,
    ← Nat.shiftLeft_add_eq_or_of_lt (by omega)]
  simp only [Nat.shiftLeft_eq]
  omega

theorem toNat_packXYN (op : Nibble) (x y : RegNo) (n : Nibble) :
    (packXYN op x y n).toNat = op.toNat * 4096 + x.toNat * 256 + y.toNat * 16 + n.toNat := by
  have := x.isLt
  have := y.isLt
  have := n.isLt
  rw [packXYN, BitVec.toNat_append, BitVec.toNat_append, BitVec.toNat_append,
    ← Nat.shiftLeft_add_eq_or_of_lt (show y.toNat <<< 4 ||| n.toNat < 2 ^ (4 + 4) by
      rw [← Nat.shiftLeft_add_eq_or_of_lt (by omega), Nat.shiftLeft_eq]; omega),
    ← Nat.shiftLeft_add_eq_or_of_lt (by omega), ← Nat.shiftLeft_add_eq_or_of_lt (by omega)]
  simp only [Nat.shiftLeft_eq]
  omega

theorem word_eq_packXYN (w : Word) : packXYN (fieldOp w) (fieldX w) (fieldY w) (fieldN w) = w := by
  apply BitVec.eq_of_toNat_eq
  have := w.isLt
  simp only [toNat_packXYN, fieldOp, fieldX, fieldY, fieldN, BitVec.extractLsb'_toNat, Nat.shiftRight_eq_div_pow]
  omega

theorem word_eq_packXKK (w : Word) : packXKK (fieldOp w) (fieldX w) (fieldKK w) = w := by
  apply BitVec.eq_of_toNat_eq
  have := w.isLt
  simp only [toNat_packXKK, fieldOp, fieldX, fieldKK, BitVec.extractLsb'_toNat, Nat.shiftRight_eq_div_pow]
  omega

theorem word_eq_packNNN (w : Word) : packNNN (fieldOp w) (fieldNNN w) = w := by
  apply BitVec.eq_of_toNat_eq
  have := w.isLt
  simp only [toNat_packNNN, fieldOp, fieldNNN, BitVec.extractLsb'_toNat, Nat.shiftRight_eq_div_pow]
  omega

section Fields

variable (op : Nibble) (x y : RegNo) (n : Nibble) (kk : Byte) (nnn : Addr)

@[simp] theorem fieldOp_packNNN : fieldOp (packNNN op nnn) = op := by
  apply BitVec.eq_of_toNat_eq
  have := nnn.isLt
  have := op.isLt
  simp only [fieldOp, BitVec.extractLsb'_toNat, toNat_packNNN, Nat.shiftRight_eq_div_pow]
  omega

@[simp] theorem fieldNNN_packNNN : fieldNNN (packNNN op nnn) = nnn := by
  apply BitVec.eq_of_toNat_eq
  have := nnn.isLt
  simp only [fieldNNN, BitVec.extractLsb'_toNat, toNat_packNNN, Nat.shiftRight_eq_div_pow]
  omega

@[simp] theorem fieldOp_packXKK : fieldOp (packXKK op x kk) = op := by
  apply BitVec.eq_of_toNat_eq
  have := x.isLt
  have := kk.isLt
  have := op.isLt
  simp only [fieldOp, BitVec.extractLsb'_toNat, toNat_packXKK, Nat.shiftRight_eq_div_pow]
  omega

@[simp] theorem fieldX_packXKK : fieldX (packXKK op x kk) = x := by
  apply BitVec.eq_of_toNat_eq
  have := x.isLt
  have := kk.isLt
  simp only [fieldX, BitVec.extractLsb'_toNat, toNat_packXKK, Nat.shiftRight_eq_div_pow]
  omega

@[simp] theorem fieldKK_packXKK : fieldKK (packXKK op x kk) = kk := by
  apply BitVec.eq_of_toNat_eq
  have := kk.isLt
  simp only [fieldKK, BitVec.extractLsb'_toNat, toNat_packXKK, Nat.shiftRight_eq_div_pow]
  omega

@[simp] theorem fieldOp_packXYN : fieldOp (packXYN op x y n) = op := by
  apply BitVec.eq_of_toNat_eq
  have := x.isLt
  have := y.isLt
  have := n.isLt
  have := op.isLt
  simp only [fieldOp, BitVec.extractLsb'_toNat, toNat_packXYN, Nat.shiftRight_eq_div_pow]
  omega

@[simp] theorem fieldX_packXYN : fieldX (packXYN op x y n) = x := by
  apply BitVec.eq_of_toNat_eq
  have := x.isLt
  have := y.isLt
  have := n.isLt
  simp only [fieldX, BitVec.extractLsb'_toNat, toNat_packXYN, Nat.shiftRight_eq_div_pow]
  omega

@[simp] theorem fieldY_packXYN : fieldY (packXYN op x y n) = y := by
  apply BitVec.eq_of_toNat_eq
  have := y.isLt
  have := n.isLt
  simp only [fieldY, BitVec.extractLsb'_toNat, toNat_packXYN, Nat.shiftRight_eq_div_pow]
  omega

@[simp] theorem fieldN_packXYN : fieldN (packXYN op x y n) = n := by
  apply BitVec.eq_of_toNat_eq
  have := n.isLt
  simp only [fieldN, BitVec.extractLsb'_toNat, toNat_packXYN, Nat.shiftRight_eq_div_pow]
  omega

end Fields

/-- The two bytes of a word, put together again, are the word (20_memory.md R34). -/
theorem wordOfBytes_bytes (w : Word) : wordOfBytes (highByte w) (lowByte w) = w := by
  apply BitVec.eq_of_toNat_eq
  have := w.isLt
  simp only [wordOfBytes, highByte, lowByte, BitVec.toNat_append, BitVec.extractLsb'_toNat, Nat.shiftRight_eq_div_pow]
  rw [← Nat.shiftLeft_add_eq_or_of_lt (by omega), Nat.shiftLeft_eq]
  omega

end Sys2Proof
end

