-- ==== Sys2Proof/Laws/State.lean ====
section
/-! SUPPORT. One lemma per field per update of State, each true by rfl, so that no proof unfolds a record update. -/

namespace Sys2Proof.Machine.State

variable (s : State)

/-! `writeReg` -/

@[simp] theorem writeReg_mem (r : RegNo) (b : Byte) : (s.writeReg r b).mem = s.mem := rfl
@[simp] theorem writeReg_v (r : RegNo) (b : Byte) : (s.writeReg r b).v = s.v.set r.toNat b := rfl
@[simp] theorem writeReg_i (r : RegNo) (b : Byte) : (s.writeReg r b).i = s.i := rfl
@[simp] theorem writeReg_pc (r : RegNo) (b : Byte) : (s.writeReg r b).pc = s.pc := rfl
@[simp] theorem writeReg_stack (r : RegNo) (b : Byte) : (s.writeReg r b).stack = s.stack := rfl
@[simp] theorem writeReg_sp (r : RegNo) (b : Byte) : (s.writeReg r b).sp = s.sp := rfl
@[simp] theorem writeReg_dt (r : RegNo) (b : Byte) : (s.writeReg r b).dt = s.dt := rfl
@[simp] theorem writeReg_st (r : RegNo) (b : Byte) : (s.writeReg r b).st = s.st := rfl
@[simp] theorem writeReg_fb (r : RegNo) (b : Byte) : (s.writeReg r b).fb = s.fb := rfl
@[simp] theorem writeReg_keypad (r : RegNo) (b : Byte) : (s.writeReg r b).keypad = s.keypad := rfl
@[simp] theorem writeReg_drawFlag (r : RegNo) (b : Byte) : (s.writeReg r b).drawFlag = s.drawFlag := rfl
@[simp] theorem writeReg_port (r : RegNo) (b : Byte) : (s.writeReg r b).port = s.port := rfl

/-! `writeIndex` -/

@[simp] theorem writeIndex_mem (w : Word) : (s.writeIndex w).mem = s.mem := rfl
@[simp] theorem writeIndex_v (w : Word) : (s.writeIndex w).v = s.v := rfl
@[simp] theorem writeIndex_i (w : Word) : (s.writeIndex w).i = w := rfl
@[simp] theorem writeIndex_pc (w : Word) : (s.writeIndex w).pc = s.pc := rfl
@[simp] theorem writeIndex_stack (w : Word) : (s.writeIndex w).stack = s.stack := rfl
@[simp] theorem writeIndex_sp (w : Word) : (s.writeIndex w).sp = s.sp := rfl
@[simp] theorem writeIndex_dt (w : Word) : (s.writeIndex w).dt = s.dt := rfl
@[simp] theorem writeIndex_st (w : Word) : (s.writeIndex w).st = s.st := rfl
@[simp] theorem writeIndex_fb (w : Word) : (s.writeIndex w).fb = s.fb := rfl
@[simp] theorem writeIndex_keypad (w : Word) : (s.writeIndex w).keypad = s.keypad := rfl
@[simp] theorem writeIndex_drawFlag (w : Word) : (s.writeIndex w).drawFlag = s.drawFlag := rfl
@[simp] theorem writeIndex_port (w : Word) : (s.writeIndex w).port = s.port := rfl

/-! `writePc` -/

@[simp] theorem writePc_mem (a : Addr) : (s.writePc a).mem = s.mem := rfl
@[simp] theorem writePc_v (a : Addr) : (s.writePc a).v = s.v := rfl
@[simp] theorem writePc_i (a : Addr) : (s.writePc a).i = s.i := rfl
@[simp] theorem writePc_pc (a : Addr) : (s.writePc a).pc = a := rfl
@[simp] theorem writePc_stack (a : Addr) : (s.writePc a).stack = s.stack := rfl
@[simp] theorem writePc_sp (a : Addr) : (s.writePc a).sp = s.sp := rfl
@[simp] theorem writePc_dt (a : Addr) : (s.writePc a).dt = s.dt := rfl
@[simp] theorem writePc_st (a : Addr) : (s.writePc a).st = s.st := rfl
@[simp] theorem writePc_fb (a : Addr) : (s.writePc a).fb = s.fb := rfl
@[simp] theorem writePc_keypad (a : Addr) : (s.writePc a).keypad = s.keypad := rfl
@[simp] theorem writePc_drawFlag (a : Addr) : (s.writePc a).drawFlag = s.drawFlag := rfl
@[simp] theorem writePc_port (a : Addr) : (s.writePc a).port = s.port := rfl

/-! `writeDelay` -/

@[simp] theorem writeDelay_mem (b : Byte) : (s.writeDelay b).mem = s.mem := rfl
@[simp] theorem writeDelay_v (b : Byte) : (s.writeDelay b).v = s.v := rfl
@[simp] theorem writeDelay_i (b : Byte) : (s.writeDelay b).i = s.i := rfl
@[simp] theorem writeDelay_pc (b : Byte) : (s.writeDelay b).pc = s.pc := rfl
@[simp] theorem writeDelay_stack (b : Byte) : (s.writeDelay b).stack = s.stack := rfl
@[simp] theorem writeDelay_sp (b : Byte) : (s.writeDelay b).sp = s.sp := rfl
@[simp] theorem writeDelay_dt (b : Byte) : (s.writeDelay b).dt = b := rfl
@[simp] theorem writeDelay_st (b : Byte) : (s.writeDelay b).st = s.st := rfl
@[simp] theorem writeDelay_fb (b : Byte) : (s.writeDelay b).fb = s.fb := rfl
@[simp] theorem writeDelay_keypad (b : Byte) : (s.writeDelay b).keypad = s.keypad := rfl
@[simp] theorem writeDelay_drawFlag (b : Byte) : (s.writeDelay b).drawFlag = s.drawFlag := rfl
@[simp] theorem writeDelay_port (b : Byte) : (s.writeDelay b).port = s.port := rfl

/-! `writeSound` -/

@[simp] theorem writeSound_mem (b : Byte) : (s.writeSound b).mem = s.mem := rfl
@[simp] theorem writeSound_v (b : Byte) : (s.writeSound b).v = s.v := rfl
@[simp] theorem writeSound_i (b : Byte) : (s.writeSound b).i = s.i := rfl
@[simp] theorem writeSound_pc (b : Byte) : (s.writeSound b).pc = s.pc := rfl
@[simp] theorem writeSound_stack (b : Byte) : (s.writeSound b).stack = s.stack := rfl
@[simp] theorem writeSound_sp (b : Byte) : (s.writeSound b).sp = s.sp := rfl
@[simp] theorem writeSound_dt (b : Byte) : (s.writeSound b).dt = s.dt := rfl
@[simp] theorem writeSound_st (b : Byte) : (s.writeSound b).st = b := rfl
@[simp] theorem writeSound_fb (b : Byte) : (s.writeSound b).fb = s.fb := rfl
@[simp] theorem writeSound_keypad (b : Byte) : (s.writeSound b).keypad = s.keypad := rfl
@[simp] theorem writeSound_drawFlag (b : Byte) : (s.writeSound b).drawFlag = s.drawFlag := rfl
@[simp] theorem writeSound_port (b : Byte) : (s.writeSound b).port = s.port := rfl

/-! `writeScreen` -/

@[simp] theorem writeScreen_mem (p : Pixels) : (s.writeScreen p).mem = s.mem := rfl
@[simp] theorem writeScreen_v (p : Pixels) : (s.writeScreen p).v = s.v := rfl
@[simp] theorem writeScreen_i (p : Pixels) : (s.writeScreen p).i = s.i := rfl
@[simp] theorem writeScreen_pc (p : Pixels) : (s.writeScreen p).pc = s.pc := rfl
@[simp] theorem writeScreen_stack (p : Pixels) : (s.writeScreen p).stack = s.stack := rfl
@[simp] theorem writeScreen_sp (p : Pixels) : (s.writeScreen p).sp = s.sp := rfl
@[simp] theorem writeScreen_dt (p : Pixels) : (s.writeScreen p).dt = s.dt := rfl
@[simp] theorem writeScreen_st (p : Pixels) : (s.writeScreen p).st = s.st := rfl
@[simp] theorem writeScreen_fb (p : Pixels) : (s.writeScreen p).fb = p := rfl
@[simp] theorem writeScreen_keypad (p : Pixels) : (s.writeScreen p).keypad = s.keypad := rfl
@[simp] theorem writeScreen_drawFlag (p : Pixels) : (s.writeScreen p).drawFlag = s.drawFlag := rfl
@[simp] theorem writeScreen_port (p : Pixels) : (s.writeScreen p).port = s.port := rfl

/-! `writeDrawFlag` -/

@[simp] theorem writeDrawFlag_mem (b : Bool) : (s.writeDrawFlag b).mem = s.mem := rfl
@[simp] theorem writeDrawFlag_v (b : Bool) : (s.writeDrawFlag b).v = s.v := rfl
@[simp] theorem writeDrawFlag_i (b : Bool) : (s.writeDrawFlag b).i = s.i := rfl
@[simp] theorem writeDrawFlag_pc (b : Bool) : (s.writeDrawFlag b).pc = s.pc := rfl
@[simp] theorem writeDrawFlag_stack (b : Bool) : (s.writeDrawFlag b).stack = s.stack := rfl
@[simp] theorem writeDrawFlag_sp (b : Bool) : (s.writeDrawFlag b).sp = s.sp := rfl
@[simp] theorem writeDrawFlag_dt (b : Bool) : (s.writeDrawFlag b).dt = s.dt := rfl
@[simp] theorem writeDrawFlag_st (b : Bool) : (s.writeDrawFlag b).st = s.st := rfl
@[simp] theorem writeDrawFlag_fb (b : Bool) : (s.writeDrawFlag b).fb = s.fb := rfl
@[simp] theorem writeDrawFlag_keypad (b : Bool) : (s.writeDrawFlag b).keypad = s.keypad := rfl
@[simp] theorem writeDrawFlag_drawFlag (b : Bool) : (s.writeDrawFlag b).drawFlag = b := rfl
@[simp] theorem writeDrawFlag_port (b : Bool) : (s.writeDrawFlag b).port = s.port := rfl

/-! `writeKey` -/

@[simp] theorem writeKey_mem (k : RegNo) (b : Bool) : (s.writeKey k b).mem = s.mem := rfl
@[simp] theorem writeKey_v (k : RegNo) (b : Bool) : (s.writeKey k b).v = s.v := rfl
@[simp] theorem writeKey_i (k : RegNo) (b : Bool) : (s.writeKey k b).i = s.i := rfl
@[simp] theorem writeKey_pc (k : RegNo) (b : Bool) : (s.writeKey k b).pc = s.pc := rfl
@[simp] theorem writeKey_stack (k : RegNo) (b : Bool) : (s.writeKey k b).stack = s.stack := rfl
@[simp] theorem writeKey_sp (k : RegNo) (b : Bool) : (s.writeKey k b).sp = s.sp := rfl
@[simp] theorem writeKey_dt (k : RegNo) (b : Bool) : (s.writeKey k b).dt = s.dt := rfl
@[simp] theorem writeKey_st (k : RegNo) (b : Bool) : (s.writeKey k b).st = s.st := rfl
@[simp] theorem writeKey_fb (k : RegNo) (b : Bool) : (s.writeKey k b).fb = s.fb := rfl
@[simp] theorem writeKey_keypad (k : RegNo) (b : Bool) : (s.writeKey k b).keypad = s.keypad.set k.toNat b := rfl
@[simp] theorem writeKey_drawFlag (k : RegNo) (b : Bool) : (s.writeKey k b).drawFlag = s.drawFlag := rfl
@[simp] theorem writeKey_port (k : RegNo) (b : Bool) : (s.writeKey k b).port = s.port := rfl

/-! `memWrite` -/

@[simp] theorem memWrite_mem (a : Nat) (b : Byte) : (s.memWrite a b).mem = setCell s.mem (a % memSize) b := rfl
@[simp] theorem memWrite_v (a : Nat) (b : Byte) : (s.memWrite a b).v = s.v := rfl
@[simp] theorem memWrite_i (a : Nat) (b : Byte) : (s.memWrite a b).i = s.i := rfl
@[simp] theorem memWrite_pc (a : Nat) (b : Byte) : (s.memWrite a b).pc = s.pc := rfl
@[simp] theorem memWrite_stack (a : Nat) (b : Byte) : (s.memWrite a b).stack = s.stack := rfl
@[simp] theorem memWrite_sp (a : Nat) (b : Byte) : (s.memWrite a b).sp = s.sp := rfl
@[simp] theorem memWrite_dt (a : Nat) (b : Byte) : (s.memWrite a b).dt = s.dt := rfl
@[simp] theorem memWrite_st (a : Nat) (b : Byte) : (s.memWrite a b).st = s.st := rfl
@[simp] theorem memWrite_fb (a : Nat) (b : Byte) : (s.memWrite a b).fb = s.fb := rfl
@[simp] theorem memWrite_keypad (a : Nat) (b : Byte) : (s.memWrite a b).keypad = s.keypad := rfl
@[simp] theorem memWrite_drawFlag (a : Nat) (b : Byte) : (s.memWrite a b).drawFlag = s.drawFlag := rfl
@[simp] theorem memWrite_port (a : Nat) (b : Byte) : (s.memWrite a b).port = s.port := rfl

/-! `dropTop` -/

@[simp] theorem dropTop_mem : s.dropTop.mem = s.mem := rfl
@[simp] theorem dropTop_v : s.dropTop.v = s.v := rfl
@[simp] theorem dropTop_i : s.dropTop.i = s.i := rfl
@[simp] theorem dropTop_pc : s.dropTop.pc = s.pc := rfl
@[simp] theorem dropTop_stack : s.dropTop.stack = s.stack := rfl
@[simp] theorem dropTop_sp : s.dropTop.sp = ⟨s.sp.val - 1, by omega⟩ := rfl
@[simp] theorem dropTop_dt : s.dropTop.dt = s.dt := rfl
@[simp] theorem dropTop_st : s.dropTop.st = s.st := rfl
@[simp] theorem dropTop_fb : s.dropTop.fb = s.fb := rfl
@[simp] theorem dropTop_keypad : s.dropTop.keypad = s.keypad := rfl
@[simp] theorem dropTop_drawFlag : s.dropTop.drawFlag = s.drawFlag := rfl
@[simp] theorem dropTop_port : s.dropTop.port = s.port := rfl

/-! `writePort` -/

@[simp] theorem writePort_mem (p : HostPort) : (s.writePort p).mem = s.mem := rfl
@[simp] theorem writePort_v (p : HostPort) : (s.writePort p).v = s.v := rfl
@[simp] theorem writePort_i (p : HostPort) : (s.writePort p).i = s.i := rfl
@[simp] theorem writePort_pc (p : HostPort) : (s.writePort p).pc = s.pc := rfl
@[simp] theorem writePort_stack (p : HostPort) : (s.writePort p).stack = s.stack := rfl
@[simp] theorem writePort_sp (p : HostPort) : (s.writePort p).sp = s.sp := rfl
@[simp] theorem writePort_dt (p : HostPort) : (s.writePort p).dt = s.dt := rfl
@[simp] theorem writePort_st (p : HostPort) : (s.writePort p).st = s.st := rfl
@[simp] theorem writePort_fb (p : HostPort) : (s.writePort p).fb = s.fb := rfl
@[simp] theorem writePort_keypad (p : HostPort) : (s.writePort p).keypad = s.keypad := rfl
@[simp] theorem writePort_drawFlag (p : HostPort) : (s.writePort p).drawFlag = s.drawFlag := rfl
@[simp] theorem writePort_port (p : HostPort) : (s.writePort p).port = p := rfl

/-! `report` -/

@[simp] theorem report_mem (r : Report) : (s.report r).mem = s.mem := rfl
@[simp] theorem report_v (r : Report) : (s.report r).v = s.v := rfl
@[simp] theorem report_i (r : Report) : (s.report r).i = s.i := rfl
@[simp] theorem report_pc (r : Report) : (s.report r).pc = s.pc := rfl
@[simp] theorem report_stack (r : Report) : (s.report r).stack = s.stack := rfl
@[simp] theorem report_sp (r : Report) : (s.report r).sp = s.sp := rfl
@[simp] theorem report_dt (r : Report) : (s.report r).dt = s.dt := rfl
@[simp] theorem report_st (r : Report) : (s.report r).st = s.st := rfl
@[simp] theorem report_fb (r : Report) : (s.report r).fb = s.fb := rfl
@[simp] theorem report_keypad (r : Report) : (s.report r).keypad = s.keypad := rfl
@[simp] theorem report_drawFlag (r : Report) : (s.report r).drawFlag = s.drawFlag := rfl
@[simp] theorem report_port (r : Report) : (s.report r).port = { s.port with report := r } := rfl

/-! `latch` -/

@[simp] theorem latch_mem (b : Byte) (w : Word) : (s.latch b w).mem = s.mem := rfl
@[simp] theorem latch_v (b : Byte) (w : Word) : (s.latch b w).v = s.v := rfl
@[simp] theorem latch_i (b : Byte) (w : Word) : (s.latch b w).i = s.i := rfl
@[simp] theorem latch_pc (b : Byte) (w : Word) : (s.latch b w).pc = s.pc := rfl
@[simp] theorem latch_stack (b : Byte) (w : Word) : (s.latch b w).stack = s.stack := rfl
@[simp] theorem latch_sp (b : Byte) (w : Word) : (s.latch b w).sp = s.sp := rfl
@[simp] theorem latch_dt (b : Byte) (w : Word) : (s.latch b w).dt = s.dt := rfl
@[simp] theorem latch_st (b : Byte) (w : Word) : (s.latch b w).st = s.st := rfl
@[simp] theorem latch_fb (b : Byte) (w : Word) : (s.latch b w).fb = s.fb := rfl
@[simp] theorem latch_keypad (b : Byte) (w : Word) : (s.latch b w).keypad = s.keypad := rfl
@[simp] theorem latch_drawFlag (b : Byte) (w : Word) : (s.latch b w).drawFlag = s.drawFlag := rfl
@[simp] theorem latch_port (b : Byte) (w : Word) : (s.latch b w).port = { s.port with rnd := b, outcomeWord := w } := rfl

/-! `countDraw` -/

@[simp] theorem countDraw_mem : s.countDraw.mem = s.mem := rfl
@[simp] theorem countDraw_v : s.countDraw.v = s.v := rfl
@[simp] theorem countDraw_i : s.countDraw.i = s.i := rfl
@[simp] theorem countDraw_pc : s.countDraw.pc = s.pc := rfl
@[simp] theorem countDraw_stack : s.countDraw.stack = s.stack := rfl
@[simp] theorem countDraw_sp : s.countDraw.sp = s.sp := rfl
@[simp] theorem countDraw_dt : s.countDraw.dt = s.dt := rfl
@[simp] theorem countDraw_st : s.countDraw.st = s.st := rfl
@[simp] theorem countDraw_fb : s.countDraw.fb = s.fb := rfl
@[simp] theorem countDraw_keypad : s.countDraw.keypad = s.keypad := rfl
@[simp] theorem countDraw_drawFlag : s.countDraw.drawFlag = s.drawFlag := rfl
@[simp] theorem countDraw_port : s.countDraw.port = { s.port with draws := s.port.draws + 1 } := rfl

/-! `withRequests` -/

@[simp] theorem withRequests_mem (rs : List Request) : (s.withRequests rs).mem = s.mem := rfl
@[simp] theorem withRequests_v (rs : List Request) : (s.withRequests rs).v = s.v := rfl
@[simp] theorem withRequests_i (rs : List Request) : (s.withRequests rs).i = s.i := rfl
@[simp] theorem withRequests_pc (rs : List Request) : (s.withRequests rs).pc = s.pc := rfl
@[simp] theorem withRequests_stack (rs : List Request) : (s.withRequests rs).stack = s.stack := rfl
@[simp] theorem withRequests_sp (rs : List Request) : (s.withRequests rs).sp = s.sp := rfl
@[simp] theorem withRequests_dt (rs : List Request) : (s.withRequests rs).dt = s.dt := rfl
@[simp] theorem withRequests_st (rs : List Request) : (s.withRequests rs).st = s.st := rfl
@[simp] theorem withRequests_fb (rs : List Request) : (s.withRequests rs).fb = s.fb := rfl
@[simp] theorem withRequests_keypad (rs : List Request) : (s.withRequests rs).keypad = s.keypad := rfl
@[simp] theorem withRequests_drawFlag (rs : List Request) : (s.withRequests rs).drawFlag = s.drawFlag := rfl
@[simp] theorem withRequests_port (rs : List Request) : (s.withRequests rs).port = { s.port with requests := rs } := rfl

end Sys2Proof.Machine.State
end

