-- ==== Sys2Proof/Laws/Memory.lean ====
section
/-! SUPPORT. What a write does to every cell, and that it keeps the canonical form (20_memory.md R33). -/

namespace Sys2Proof.Machine

theorem wfAbove_cons {lo b : Nat} {w : Byte} {m : Memory} :
    wfAbove lo ((b, w) :: m) = true ↔ lo ≤ b ∧ b < memSize ∧ w ≠ initialByte b ∧ wfAbove (b + 1) m = true := by
  simp [wfAbove, and_assoc]

theorem wfAbove_mono {lo lo' : Nat} {m : Memory} (h : lo' ≤ lo) (hm : wfAbove lo m = true) : wfAbove lo' m = true := by
  cases m with
  | nil => rfl
  | cons c m =>
    obtain ⟨b, w⟩ := c
    rw [wfAbove_cons] at hm ⊢
    exact ⟨h.trans hm.1, hm.2⟩

/-- A cell below every listed address reads as its reset content. -/
theorem cellAt_below {lo a : Nat} {m : Memory} (hm : wfAbove lo m = true) (h : a < lo) : cellAt m a = initialByte a := by
  induction m generalizing lo with
  | nil => rfl
  | cons c m ih =>
    obtain ⟨b, w⟩ := c
    rw [wfAbove_cons] at hm
    rw [cellAt, if_neg (by omega)]
    exact ih hm.2.2.2 (by omega)

theorem cellAt_consCell {a : Nat} {w : Byte} {m : Memory} (hm : wfAbove (a + 1) m = true) (c : Nat) :
    cellAt (consCell a w m) c = if c = a then w else cellAt m c := by
  unfold consCell
  split
  · split
    · subst_vars; exact cellAt_below hm (by omega)
    · rfl
  · rfl

theorem wfAbove_consCell {lo a : Nat} {w : Byte} {m : Memory} (h : lo ≤ a) (ha : a < memSize)
    (hm : wfAbove (a + 1) m = true) : wfAbove lo (consCell a w m) = true := by
  unfold consCell
  split
  · exact wfAbove_mono (by omega) hm
  · exact wfAbove_cons.2 ⟨h, ha, ‹_›, hm⟩

/-- Everything a write of one cell does. -/
theorem cellAt_setCell {lo a : Nat} {m : Memory} (hm : wfAbove lo m = true) (w : Byte) (c : Nat) :
    cellAt (setCell m a w) c = if c = a then w else cellAt m c := by
  induction m generalizing lo with
  | nil => exact cellAt_consCell rfl c
  | cons d m ih =>
    obtain ⟨b, u⟩ := d
    have hm' := wfAbove_cons.1 hm
    rw [setCell]
    split
    · exact cellAt_consCell (wfAbove_cons.2 ⟨by omega, hm'.2⟩) c
    · split
      · subst_vars
        rw [cellAt_consCell hm'.2.2.2]
        split
        · rfl
        · rw [cellAt, if_neg ‹_›]
      · rw [cellAt, ih hm'.2.2.2, cellAt]
        split
        · rw [if_neg (by omega)]
        · rfl

/-- A write keeps the canonical form. -/
theorem wfAbove_setCell {lo a : Nat} {m : Memory} (hm : wfAbove lo m = true) (h : lo ≤ a) (ha : a < memSize) (w : Byte) :
    wfAbove lo (setCell m a w) = true := by
  induction m generalizing lo with
  | nil => exact wfAbove_consCell h ha rfl
  | cons d m ih =>
    obtain ⟨b, u⟩ := d
    have hm' := wfAbove_cons.1 hm
    rw [setCell]
    split
    · exact wfAbove_consCell h ha (wfAbove_cons.2 ⟨by omega, hm'.2⟩)
    · split
      · subst_vars
        exact wfAbove_consCell h ha hm'.2.2.2
      · exact wfAbove_cons.2 ⟨hm'.1, hm'.2.1, hm'.2.2.1, ih hm'.2.2.2 (by omega)⟩

/-- Reset memory, which lists nothing, is canonical. -/
theorem wf_nil : Memory.wf [] = true := rfl

namespace State

variable {s : State}

/-- A byte after a write: the written byte at the written address, every other byte as before. -/
theorem memRead_memWrite (h : s.mem.wf = true) (a : Nat) (w : Byte) (c : Nat) :
    (s.memWrite a w).memRead c = if c % memSize = a % memSize then w else s.memRead c :=
  cellAt_setCell h w _

theorem wf_memWrite (h : s.mem.wf = true) (a : Nat) (w : Byte) : (s.memWrite a w).mem.wf = true :=
  wfAbove_setCell h (Nat.zero_le _) (Nat.mod_lt _ (by decide)) w

theorem wf_memWriteList (h : s.mem.wf = true) (a : Nat) (bs : List Byte) : (s.memWriteList a bs).mem.wf = true := by
  induction bs generalizing s a with
  | nil => exact h
  | cons b bs ih => exact ih (wf_memWrite h a b) (a + 1)

/-- A list of bytes leaves every address outside its own alone. -/
theorem memRead_memWriteList_outside (h : s.mem.wf = true) (a : Nat) (bs : List Byte) (c : Nat)
    (hc : ∀ k, k < bs.length → c % memSize ≠ (a + k) % memSize) : (s.memWriteList a bs).memRead c = s.memRead c := by
  induction bs generalizing s a with
  | nil => rfl
  | cons b bs ih =>
    have h0 := hc 0 (by simp)
    have ht := ih (wf_memWrite h a b) (a + 1) (fun k hk => by have := hc (k + 1) (by simpa using hk); rwa [Nat.add_right_comm])
    rw [memWriteList, ht, memRead_memWrite h, if_neg (by simpa using h0)]

/-- A list of at most 4096 bytes stands at its addresses afterwards. -/
theorem memRead_memWriteList_inside (h : s.mem.wf = true) (a : Nat) (bs : List Byte) (hl : bs.length ≤ memSize) (k : Nat)
    (hk : k < bs.length) : (s.memWriteList a bs).memRead (a + k) = bs[k] := by
  induction bs generalizing s a k with
  | nil => exact absurd hk (by simp)
  | cons b bs ih =>
    rw [memWriteList]
    simp only [List.length_cons] at hl hk
    cases k with
    | zero =>
      rw [memRead_memWriteList_outside (wf_memWrite h a b), memRead_memWrite h]
      · simp
      · intro j hj; simp only [memSize] at hl ⊢; omega
    | succ k =>
      have := ih (wf_memWrite h a b) (a + 1) (by omega) k (by omega)
      rw [show a + (k + 1) = a + 1 + k by omega, this]
      rfl

/-- Writing bytes to memory changes nothing but memory. -/
theorem memWriteList_eq (a : Nat) (bs : List Byte) : s.memWriteList a bs = { s with mem := (s.memWriteList a bs).mem } := by
  induction bs generalizing s a with
  | nil => rfl
  | cons b bs ih => rw [memWriteList, ih]; rfl

end State

end Sys2Proof.Machine
end

