-- ==== Sys2Proof/Laws/Ops.lean ====
section
/-! SUPPORT. What the shared operations do: registers, the stack, how an instruction ends, and the lists of registers and
keys. -/

namespace Sys2Proof.Machine

namespace State

variable (s : State)

/-- A register after a write: the written value in the written register, every other as before. -/
theorem readReg_writeReg (x r : RegNo) (b : Byte) : (s.writeReg x b).readReg r = if r = x then b else s.readReg r := by
  simp only [readReg, writeReg, Vector.getElem_set, BitVec.toNat_inj, eq_comm]

@[simp] theorem readReg_writeReg_self (x : RegNo) (b : Byte) : (s.writeReg x b).readReg x = b := by
  rw [readReg_writeReg, if_pos rfl]

/-- A key flag after a write. -/
theorem readKey_writeKey (k j : RegNo) (b : Bool) : (s.writeKey k b).readKey j = if j = k then b else s.readKey j := by
  simp only [readKey, writeKey, Vector.getElem_set, BitVec.toNat_inj, eq_comm]

@[simp] theorem readReg_writeIndex (w : Word) (r : RegNo) : (s.writeIndex w).readReg r = s.readReg r := rfl
@[simp] theorem readReg_writePc (a : Addr) (r : RegNo) : (s.writePc a).readReg r = s.readReg r := rfl
@[simp] theorem readReg_writeDelay (b : Byte) (r : RegNo) : (s.writeDelay b).readReg r = s.readReg r := rfl
@[simp] theorem readReg_writeSound (b : Byte) (r : RegNo) : (s.writeSound b).readReg r = s.readReg r := rfl
@[simp] theorem readReg_writeScreen (p : Pixels) (r : RegNo) : (s.writeScreen p).readReg r = s.readReg r := rfl
@[simp] theorem readReg_writeDrawFlag (b : Bool) (r : RegNo) : (s.writeDrawFlag b).readReg r = s.readReg r := rfl
@[simp] theorem readReg_writeKey (k : RegNo) (b : Bool) (r : RegNo) : (s.writeKey k b).readReg r = s.readReg r := rfl
@[simp] theorem readReg_memWrite (a : Nat) (b : Byte) (r : RegNo) : (s.memWrite a b).readReg r = s.readReg r := rfl
@[simp] theorem readReg_dropTop (r : RegNo) : s.dropTop.readReg r = s.readReg r := rfl
@[simp] theorem readReg_writePort (p : HostPort) (r : RegNo) : (s.writePort p).readReg r = s.readReg r := rfl
@[simp] theorem readReg_report (p : Report) (r : RegNo) : (s.report p).readReg r = s.readReg r := rfl
@[simp] theorem readReg_latch (b : Byte) (w : Word) (r : RegNo) : (s.latch b w).readReg r = s.readReg r := rfl
@[simp] theorem readReg_countDraw (r : RegNo) : s.countDraw.readReg r = s.readReg r := rfl
@[simp] theorem readReg_withRequests (rs : List Request) (r : RegNo) : (s.withRequests rs).readReg r = s.readReg r := rfl

@[simp] theorem memRead_writeReg (x : RegNo) (b : Byte) (c : Nat) : (s.writeReg x b).memRead c = s.memRead c := rfl
@[simp] theorem memRead_writeIndex (w : Word) (c : Nat) : (s.writeIndex w).memRead c = s.memRead c := rfl
@[simp] theorem memRead_writePc (a : Addr) (c : Nat) : (s.writePc a).memRead c = s.memRead c := rfl
@[simp] theorem memRead_writeDelay (b : Byte) (c : Nat) : (s.writeDelay b).memRead c = s.memRead c := rfl
@[simp] theorem memRead_writeSound (b : Byte) (c : Nat) : (s.writeSound b).memRead c = s.memRead c := rfl
@[simp] theorem memRead_writeScreen (p : Pixels) (c : Nat) : (s.writeScreen p).memRead c = s.memRead c := rfl
@[simp] theorem memRead_writeDrawFlag (b : Bool) (c : Nat) : (s.writeDrawFlag b).memRead c = s.memRead c := rfl
@[simp] theorem memRead_writeKey (k : RegNo) (b : Bool) (c : Nat) : (s.writeKey k b).memRead c = s.memRead c := rfl
@[simp] theorem memRead_dropTop (c : Nat) : s.dropTop.memRead c = s.memRead c := rfl
@[simp] theorem memRead_writePort (p : HostPort) (c : Nat) : (s.writePort p).memRead c = s.memRead c := rfl
@[simp] theorem memRead_report (r : Report) (c : Nat) : (s.report r).memRead c = s.memRead c := rfl
@[simp] theorem memRead_latch (b : Byte) (w : Word) (c : Nat) : (s.latch b w).memRead c = s.memRead c := rfl
@[simp] theorem memRead_countDraw (c : Nat) : s.countDraw.memRead c = s.memRead c := rfl
@[simp] theorem memRead_withRequests (rs : List Request) (c : Nat) : (s.withRequests rs).memRead c = s.memRead c := rfl

@[simp] theorem memWriteList_v (a : Nat) (bs : List Byte) : (s.memWriteList a bs).v = s.v := by
  rw [memWriteList_eq]
@[simp] theorem memWriteList_i (a : Nat) (bs : List Byte) : (s.memWriteList a bs).i = s.i := by
  rw [memWriteList_eq]
@[simp] theorem memWriteList_pc (a : Nat) (bs : List Byte) : (s.memWriteList a bs).pc = s.pc := by
  rw [memWriteList_eq]
@[simp] theorem memWriteList_stack (a : Nat) (bs : List Byte) : (s.memWriteList a bs).stack = s.stack := by
  rw [memWriteList_eq]
@[simp] theorem memWriteList_sp (a : Nat) (bs : List Byte) : (s.memWriteList a bs).sp = s.sp := by
  rw [memWriteList_eq]
@[simp] theorem memWriteList_dt (a : Nat) (bs : List Byte) : (s.memWriteList a bs).dt = s.dt := by
  rw [memWriteList_eq]
@[simp] theorem memWriteList_st (a : Nat) (bs : List Byte) : (s.memWriteList a bs).st = s.st := by
  rw [memWriteList_eq]
@[simp] theorem memWriteList_fb (a : Nat) (bs : List Byte) : (s.memWriteList a bs).fb = s.fb := by
  rw [memWriteList_eq]
@[simp] theorem memWriteList_keypad (a : Nat) (bs : List Byte) : (s.memWriteList a bs).keypad = s.keypad := by
  rw [memWriteList_eq]
@[simp] theorem memWriteList_drawFlag (a : Nat) (bs : List Byte) : (s.memWriteList a bs).drawFlag = s.drawFlag := by
  rw [memWriteList_eq]
@[simp] theorem memWriteList_port (a : Nat) (bs : List Byte) : (s.memWriteList a bs).port = s.port := by
  rw [memWriteList_eq]

@[simp] theorem readReg_memWriteList (a : Nat) (bs : List Byte) (r : RegNo) :
    (s.memWriteList a bs).readReg r = s.readReg r := by
  rw [memWriteList_eq]; rfl

/-- A push on a stack that is not full: one more entry, the pushed address on top of the old ones. -/
theorem push_of_lt (a : Addr) (h : s.sp.val < 16) :
    s.push a = { s with stack := s.stack.set s.sp.val a, sp := ⟨s.sp.val + 1, by omega⟩ } := by
  rw [push, dif_pos h]

/-- A pop after a push gives the pushed address. -/
theorem top_push (a : Addr) (h : s.sp.val < 16) : (s.push a).top = a := by
  simp [push_of_lt s a h, top]

/-- An item's address is already reduced: reading there is reading at `I + k` (20_memory.md R37). -/
@[simp] theorem memRead_itemAddr (k : Nat) : s.memRead (s.itemAddr k) = s.memRead (s.i.toNat + k) := by
  simp [memRead, itemAddr]

/-- Storing items changes nothing but memory. -/
theorem storeItems_eq (bs : List Byte) : s.storeItems bs = { s with mem := (s.storeItems bs).mem } := memWriteList_eq _ _

theorem wf_storeItems (h : s.mem.wf = true) (bs : List Byte) : (s.storeItems bs).mem.wf = true :=
  wf_memWriteList h _ _

/-- After storing items, item `k` stands at its address. -/
theorem memRead_storeItems_inside (h : s.mem.wf = true) (bs : List Byte) (hl : bs.length ≤ memSize) (k : Nat)
    (hk : k < bs.length) : (s.storeItems bs).memRead (s.i.toNat + k) = bs[k] := by
  rw [← memRead_memWriteList_inside h (s.itemAddr 0) bs hl k hk, storeItems]
  simp [memRead, itemAddr]

/-- Storing items leaves every address that is no item's alone. -/
theorem memRead_storeItems_outside (h : s.mem.wf = true) (bs : List Byte) (a : Nat)
    (ha : ∀ k, k < bs.length → a % memSize ≠ s.itemAddr k) : (s.storeItems bs).memRead a = s.memRead a :=
  memRead_memWriteList_outside h _ _ _ fun k hk => by
    have := ha k hk
    simpa [itemAddr] using this

/-- A memory read depends on the memory alone. -/
theorem memRead_congr {s t : State} (h : t.mem = s.mem) (a : Nat) : t.memRead a = s.memRead a := by
  rw [memRead, memRead, h]

end State

/-- How an instruction that advances by 2 ends. -/
theorem finish_eq (s : State) : finish s = .next ((s.writePc (s.pc + 2)).report (.step .normal)) := rfl

/-- How an instruction that sets `pc` ends. -/
theorem finishAt_eq (a : Addr) (s : State) : finishAt a s = .next ((s.writePc a).report (.step .normal)) := rfl

/-- How a skip ends. -/
theorem finishSkip_eq (c : Bool) (s : State) :
    finishSkip c s = .next ((s.writePc (if c then s.pc + 4 else s.pc + 2)).report (.step .normal)) := rfl

/-- Everything an error outcome does. -/
theorem raiseError_eq (o : StepOutcome) (s : State) :
    raiseError o s = .next ((s.writePc (s.pc + 2)).report (.step o)) := rfl

/-- The registers LD [I],Vx and LD Vx,[I] move are those numbered 0 to `x`. -/
theorem mem_regsUpTo (x r : RegNo) : r ∈ regsUpTo x ↔ r.toNat ≤ x.toNat := by
  simp only [regsUpTo, List.mem_map, List.mem_range]
  constructor
  · rintro ⟨k, hk, rfl⟩
    rw [BitVec.toNat_ofNat]
    exact (Nat.mod_le _ _).trans (by omega)
  · exact fun h => ⟨r.toNat, by omega, by simp⟩

@[simp] theorem length_regsUpTo (x : RegNo) : (regsUpTo x).length = x.toNat + 1 := by simp [regsUpTo]

theorem getElem_regsUpTo (x : RegNo) (k : Nat) (h : k < (regsUpTo x).length) : (regsUpTo x)[k] = BitVec.ofNat 4 k := by
  simp [regsUpTo]

/-- Loading a list of registers, each from a value that does not depend on the registers. -/
theorem foldl_writeReg (f : RegNo → Byte) (rs : List RegNo) (s : State) :
    (∀ r, (rs.foldl (fun t k => t.writeReg k (f k)) s).readReg r = if r ∈ rs then f r else s.readReg r) ∧
      rs.foldl (fun t k => t.writeReg k (f k)) s =
        { s with v := (rs.foldl (fun t k => t.writeReg k (f k)) s).v } := by
  induction rs generalizing s with
  | nil => simp
  | cons k rs ih =>
    obtain ⟨h1, h2⟩ := ih (s.writeReg k (f k))
    refine ⟨fun r => ?_, ?_⟩
    · rw [List.foldl_cons, h1, State.readReg_writeReg]
      by_cases hr : r ∈ rs
      · simp [hr]
      · by_cases hk : r = k
        · simp [hk]
        · simp [hr, hk]
    · rw [List.foldl_cons, h2]; rfl

/-- Everything loading a list of registers does (43_index_memory.md R115). -/
theorem State.readReg_loadItems (s : State) (rs : List RegNo) (r : RegNo) :
    (s.loadItems rs).readReg r = if r ∈ rs then s.memRead (s.i.toNat + r.toNat) else s.readReg r := by
  rw [← State.memRead_itemAddr]
  exact (foldl_writeReg (fun k => s.memRead (s.itemAddr k.toNat)) rs s).1 r

/-- Loading registers changes nothing but registers. -/
theorem State.loadItems_eq (s : State) (rs : List RegNo) : s.loadItems rs = { s with v := (s.loadItems rs).v } :=
  (foldl_writeReg (fun k => s.memRead (s.itemAddr k.toNat)) rs s).2

namespace State

variable (s : State)

@[simp] theorem loadItems_mem (rs : List RegNo) : (s.loadItems rs).mem = s.mem := by
  rw [loadItems_eq]
@[simp] theorem loadItems_i (rs : List RegNo) : (s.loadItems rs).i = s.i := by
  rw [loadItems_eq]
@[simp] theorem loadItems_pc (rs : List RegNo) : (s.loadItems rs).pc = s.pc := by
  rw [loadItems_eq]
@[simp] theorem loadItems_stack (rs : List RegNo) : (s.loadItems rs).stack = s.stack := by
  rw [loadItems_eq]
@[simp] theorem loadItems_sp (rs : List RegNo) : (s.loadItems rs).sp = s.sp := by
  rw [loadItems_eq]
@[simp] theorem loadItems_dt (rs : List RegNo) : (s.loadItems rs).dt = s.dt := by
  rw [loadItems_eq]
@[simp] theorem loadItems_st (rs : List RegNo) : (s.loadItems rs).st = s.st := by
  rw [loadItems_eq]
@[simp] theorem loadItems_fb (rs : List RegNo) : (s.loadItems rs).fb = s.fb := by
  rw [loadItems_eq]
@[simp] theorem loadItems_keypad (rs : List RegNo) : (s.loadItems rs).keypad = s.keypad := by
  rw [loadItems_eq]
@[simp] theorem loadItems_drawFlag (rs : List RegNo) : (s.loadItems rs).drawFlag = s.drawFlag := by
  rw [loadItems_eq]
@[simp] theorem loadItems_port (rs : List RegNo) : (s.loadItems rs).port = s.port := by
  rw [loadItems_eq]
@[simp] theorem storeItems_v (bs : List Byte) : (s.storeItems bs).v = s.v := by
  rw [storeItems_eq]
@[simp] theorem storeItems_i (bs : List Byte) : (s.storeItems bs).i = s.i := by
  rw [storeItems_eq]
@[simp] theorem storeItems_pc (bs : List Byte) : (s.storeItems bs).pc = s.pc := by
  rw [storeItems_eq]
@[simp] theorem storeItems_stack (bs : List Byte) : (s.storeItems bs).stack = s.stack := by
  rw [storeItems_eq]
@[simp] theorem storeItems_sp (bs : List Byte) : (s.storeItems bs).sp = s.sp := by
  rw [storeItems_eq]
@[simp] theorem storeItems_dt (bs : List Byte) : (s.storeItems bs).dt = s.dt := by
  rw [storeItems_eq]
@[simp] theorem storeItems_st (bs : List Byte) : (s.storeItems bs).st = s.st := by
  rw [storeItems_eq]
@[simp] theorem storeItems_fb (bs : List Byte) : (s.storeItems bs).fb = s.fb := by
  rw [storeItems_eq]
@[simp] theorem storeItems_keypad (bs : List Byte) : (s.storeItems bs).keypad = s.keypad := by
  rw [storeItems_eq]
@[simp] theorem storeItems_drawFlag (bs : List Byte) : (s.storeItems bs).drawFlag = s.drawFlag := by
  rw [storeItems_eq]
@[simp] theorem storeItems_port (bs : List Byte) : (s.storeItems bs).port = s.port := by
  rw [storeItems_eq]
@[simp] theorem push_mem (a : Addr) : (s.push a).mem = s.mem := by
  unfold push; split <;> rfl
@[simp] theorem push_v (a : Addr) : (s.push a).v = s.v := by
  unfold push; split <;> rfl
@[simp] theorem push_i (a : Addr) : (s.push a).i = s.i := by
  unfold push; split <;> rfl
@[simp] theorem push_pc (a : Addr) : (s.push a).pc = s.pc := by
  unfold push; split <;> rfl
@[simp] theorem push_dt (a : Addr) : (s.push a).dt = s.dt := by
  unfold push; split <;> rfl
@[simp] theorem push_st (a : Addr) : (s.push a).st = s.st := by
  unfold push; split <;> rfl
@[simp] theorem push_fb (a : Addr) : (s.push a).fb = s.fb := by
  unfold push; split <;> rfl
@[simp] theorem push_keypad (a : Addr) : (s.push a).keypad = s.keypad := by
  unfold push; split <;> rfl
@[simp] theorem push_drawFlag (a : Addr) : (s.push a).drawFlag = s.drawFlag := by
  unfold push; split <;> rfl
@[simp] theorem push_port (a : Addr) : (s.push a).port = s.port := by
  unfold push; split <;> rfl

@[simp] theorem readReg_storeItems (bs : List Byte) (r : RegNo) : (s.storeItems bs).readReg r = s.readReg r :=
  readReg_memWriteList _ _ _ _

@[simp] theorem readReg_push (a : Addr) (r : RegNo) : (s.push a).readReg r = s.readReg r := by
  rw [readReg, readReg, push_v]

@[simp] theorem memRead_loadItems (rs : List RegNo) (a : Nat) : (s.loadItems rs).memRead a = s.memRead a :=
  memRead_congr (loadItems_mem s rs) a

@[simp] theorem memRead_push (b : Addr) (a : Nat) : (s.push b).memRead a = s.memRead a :=
  memRead_congr (push_mem s b) a

end State

/-- The first pressed key is the least one, and there is one when some key is pressed (45_keypad.md R132). -/
theorem firstKey_eq_some (s : State) (k : RegNo) :
    s.firstKey = some k ↔ s.readKey k = true ∧ ∀ j : RegNo, j.toNat < k.toNat → s.readKey j = false := by
  have hk : k.toNat < 16 := k.isLt
  rw [State.firstKey, allKeys, List.find?_eq_some_iff_getElem]
  constructor
  · rintro ⟨hp, i, hi, rfl, hj⟩
    refine ⟨hp, fun j hjk => ?_⟩
    simp only [List.length_map, List.length_range] at hi
    simp only [List.getElem_map, List.getElem_range, BitVec.toNat_ofNat] at hjk
    have := hj j.toNat (by omega)
    simpa using this
  · rintro ⟨hp, hj⟩
    refine ⟨hp, k.toNat, by simpa using hk, by simp, fun j hjk => ?_⟩
    have := hj (BitVec.ofNat 4 j) (by simpa [Nat.mod_eq_of_lt (show j < 16 by omega)] using hjk)
    simpa using this

/-- No first key: none is pressed. -/
theorem firstKey_eq_none (s : State) : s.firstKey = none ↔ ∀ k, s.readKey k = false := by
  rw [State.firstKey, List.find?_eq_none]
  constructor
  · intro h k
    have := h k (List.mem_map.2 ⟨k.toNat, List.mem_range.2 k.isLt, by simp⟩)
    simpa using this
  · intro h k _
    simp [h k]

end Sys2Proof.Machine
end

