-- ==== Sys2Proof/Laws/Display.lean ====
section
/-! SUPPORT. What toggling a list of pixels does, and which pixels a sprite selects (44_display.md R121). -/

namespace Sys2Proof.Machine

theorem xorPixel_fst (acc : Pixels × Bool) (j k : PixelIdx) :
    (xorPixel acc j).1[k.val] = (acc.1[k.val] ^^ decide (k = j)) := by
  simp only [xorPixel, Vector.getElem_set]
  by_cases h : j = k
  · subst h; simp
  · simp [Fin.val_inj, h, Ne.symm h]

/-- Toggling a list without repeats: its pixels change, the flag says whether one of them was 1. -/
theorem foldl_xorPixel (ts : List PixelIdx) (h : ts.Nodup) (acc : Pixels × Bool) :
    (∀ k : PixelIdx, (ts.foldl xorPixel acc).1[k.val] = (acc.1[k.val] ^^ decide (k ∈ ts))) ∧
      ((ts.foldl xorPixel acc).2 = true ↔ acc.2 = true ∨ ∃ k ∈ ts, acc.1[k.val] = true) := by
  induction ts generalizing acc with
  | nil => simp
  | cons j ts ih =>
    obtain ⟨hj, hts⟩ := List.nodup_cons.1 h
    obtain ⟨h1, h2⟩ := ih hts (xorPixel acc j)
    refine ⟨fun k => ?_, ?_⟩
    · rw [List.foldl_cons, h1, xorPixel_fst]
      by_cases hk : k = j
      · subst hk; simp [hj]
      · simp [hk]
    · rw [List.foldl_cons, h2]
      have hflag : (xorPixel acc j).2 = (acc.2 || acc.1[j.val]) := rfl
      have hrest : (∃ k ∈ ts, (xorPixel acc j).1[k.val] = true) ↔ ∃ k ∈ ts, acc.1[k.val] = true := by
        refine exists_congr fun k => and_congr_right fun hk => ?_
        have : k ≠ j := fun e => hj (e ▸ hk)
        rw [xorPixel_fst]; simp [this]
      rw [hflag, hrest]
      simp [or_assoc]

theorem xorPixels_spec (fb : Pixels) (ts : List PixelIdx) (h : ts.Nodup) :
    (∀ k : PixelIdx, (xorPixels fb ts).1[k.val] = (fb[k.val] ^^ decide (k ∈ ts))) ∧
      ((xorPixels fb ts).2 = true ↔ ∃ k ∈ ts, fb[k.val] = true) := by
  simpa [xorPixels] using foldl_xorPixel ts h (fb, false)

/-- Within one DRW no pixel is selected twice (44_display.md R121, corner case 4). -/
theorem pixelIdx_injective {x0 y0 dx dy dx' dy' : Nat} (h : dx < 8) (h' : dx' < 8) (hy : dy < 16) (hy' : dy' < 16)
    (e : pixelIdx x0 y0 dx dy = pixelIdx x0 y0 dx' dy') : dx = dx' ∧ dy = dy' := by
  simp only [pixelIdx, Fin.mk.injEq] at e
  omega

theorem mem_rowTargets {x0 y0 dy : Nat} {row : Byte} {k : PixelIdx} :
    k ∈ rowTargets x0 y0 dy row ↔ ∃ dx, dx < 8 ∧ row.getLsbD (7 - dx) = true ∧ pixelIdx x0 y0 dx dy = k := by
  simp [rowTargets, and_assoc]

theorem mem_spriteTargets {s : State} {x0 y0 n : Nat} {k : PixelIdx} :
    k ∈ s.spriteTargets x0 y0 n ↔ ∃ dy dx, dy < n ∧ dx < 8 ∧
      (s.memRead (s.i.toNat + dy)).getLsbD (7 - dx) = true ∧ pixelIdx x0 y0 dx dy = k := by
  simp only [State.spriteTargets, State.memRead_itemAddr, List.mem_flatMap, List.mem_range, mem_rowTargets, exists_and_left]

theorem nodup_rowTargets (x0 y0 dy : Nat) (row : Byte) (hy : dy < 16) : (rowTargets x0 y0 dy row).Nodup := by
  refine List.Nodup.map_on ?_ (List.nodup_range.filter _)
  intro a ha b hb e
  simp only [List.mem_filter, List.mem_range] at ha hb
  exact (pixelIdx_injective ha.1 hb.1 hy hy e).1

theorem nodup_spriteTargets (s : State) (x0 y0 n : Nat) (hn : n ≤ 16) : (s.spriteTargets x0 y0 n).Nodup := by
  rw [State.spriteTargets, List.nodup_flatMap]
  refine ⟨fun dy hdy => nodup_rowTargets _ _ _ _ (by rw [List.mem_range] at hdy; omega), ?_⟩
  refine List.Pairwise.imp_of_mem ?_ List.nodup_range
  intro a b ha hb hab
  rw [List.mem_range] at ha hb
  intro k hk hk'
  rw [mem_rowTargets] at hk hk'
  obtain ⟨dx, hdx, -, rfl⟩ := hk
  obtain ⟨dx', hdx', -, e⟩ := hk'
  exact hab (pixelIdx_injective hdx' hdx (by omega) (by omega) e).2.symm

theorem nodup_drawTargets (s : State) (x y : RegNo) (n : Nibble) : (s.drawTargets x y n).Nodup :=
  nodup_spriteTargets _ _ _ _ (by have := n.isLt; omega)

/-- The list the meaning of DRW toggles is the set of pixels the rule's words select. -/
theorem mem_drawTargets (s : State) (x y : RegNo) (n : Nibble) (k : PixelIdx) :
    k ∈ s.drawTargets x y n ↔ SpriteSelects s x y n k.val := by
  simp only [State.drawTargets, mem_spriteTargets, SpriteSelects, pixelIdx, Fin.ext_iff, eq_comm]

end Sys2Proof.Machine
end

