-- ==== Sys2Proof/Laws/Flags.lean ====
section
/-! SUPPORT. What a flag-writing instruction's two writes do (42_alu.md R91). -/

namespace Sys2Proof.Machine.State

variable (s : State) (x : RegNo) (b : Byte) (flag : Bool)

/-- The flag in VF, the result in the destination unless that is VF, every other register as before. -/
theorem readReg_writeWithFlag (r : RegNo) :
    (s.writeWithFlag x b flag).readReg r = if r = VF then flagByte flag else if r = x then b else s.readReg r := by
  rw [writeWithFlag, readReg_writeReg, readReg_writeReg]

@[simp] theorem writeWithFlag_mem : (s.writeWithFlag x b flag).mem = s.mem := rfl
@[simp] theorem writeWithFlag_i : (s.writeWithFlag x b flag).i = s.i := rfl
@[simp] theorem writeWithFlag_pc : (s.writeWithFlag x b flag).pc = s.pc := rfl
@[simp] theorem writeWithFlag_stack : (s.writeWithFlag x b flag).stack = s.stack := rfl
@[simp] theorem writeWithFlag_sp : (s.writeWithFlag x b flag).sp = s.sp := rfl
@[simp] theorem writeWithFlag_dt : (s.writeWithFlag x b flag).dt = s.dt := rfl
@[simp] theorem writeWithFlag_st : (s.writeWithFlag x b flag).st = s.st := rfl
@[simp] theorem writeWithFlag_fb : (s.writeWithFlag x b flag).fb = s.fb := rfl
@[simp] theorem writeWithFlag_keypad : (s.writeWithFlag x b flag).keypad = s.keypad := rfl
@[simp] theorem writeWithFlag_drawFlag : (s.writeWithFlag x b flag).drawFlag = s.drawFlag := rfl
@[simp] theorem writeWithFlag_port : (s.writeWithFlag x b flag).port = s.port := rfl
@[simp] theorem memRead_writeWithFlag (a : Nat) : (s.writeWithFlag x b flag).memRead a = s.memRead a := rfl

end Sys2Proof.Machine.State

namespace Sys2Proof.Machine

/-- A flag's value is 1 exactly when the flag is set. -/
theorem flagByte_eq_one (b : Bool) : flagByte b = 1 ↔ b = true := by cases b <;> decide

/-- A flag's value as a number. -/
theorem toNat_flagByte (b : Bool) : (flagByte b).toNat = b.toNat := by cases b <;> rfl

end Sys2Proof.Machine
end

