-- ==== Sys2Proof/Laws/Exec.lean ====
section
/-! SUPPORT. What each instruction does, said once: the next state of `exec`, for every instruction and every state. A proof
about an instruction cites its equation here and does not unfold its meaning. -/

namespace Sys2Proof.Machine

variable (s : State)

theorem exec_cls :
    exec .cls s = .next ((((s.writeScreen (Vector.replicate 2048 false)).writeDrawFlag true).writePc (s.pc + 2)).report (.step .normal)) := rfl

theorem exec_jp (nnn : Addr) :
    exec (.jp nnn) s = .next ((s.writePc nnn).report (.step .normal)) := rfl

theorem exec_seByte (x : RegNo) (kk : Byte) :
    exec (.seByte x kk) s = .next ((s.writePc (if s.readReg x == kk then s.pc + 4 else s.pc + 2)).report (.step .normal)) := rfl

theorem exec_sneByte (x : RegNo) (kk : Byte) :
    exec (.sneByte x kk) s = .next ((s.writePc (if s.readReg x != kk then s.pc + 4 else s.pc + 2)).report (.step .normal)) := rfl

theorem exec_seReg (x y : RegNo) (ign : Nibble) :
    exec (.seReg x y ign) s = .next ((s.writePc (if s.readReg x == s.readReg y then s.pc + 4 else s.pc + 2)).report (.step .normal)) := rfl

theorem exec_sneReg (x y : RegNo) (ign : Nibble) :
    exec (.sneReg x y ign) s = .next ((s.writePc (if s.readReg x != s.readReg y then s.pc + 4 else s.pc + 2)).report (.step .normal)) := rfl

theorem exec_ldByte (x : RegNo) (kk : Byte) :
    exec (.ldByte x kk) s = .next (((s.writeReg x kk).writePc (s.pc + 2)).report (.step .normal)) := rfl

theorem exec_addByte (x : RegNo) (kk : Byte) :
    exec (.addByte x kk) s = .next (((s.writeReg x (s.readReg x + kk)).writePc (s.pc + 2)).report (.step .normal)) := rfl

theorem exec_ldReg (x y : RegNo) :
    exec (.ldReg x y) s = .next (((s.writeReg x (s.readReg y)).writePc (s.pc + 2)).report (.step .normal)) := rfl

theorem exec_or (x y : RegNo) :
    exec (.or x y) s = .next (((s.writeReg x (s.readReg x ||| s.readReg y)).writePc (s.pc + 2)).report (.step .normal)) := rfl

theorem exec_and (x y : RegNo) :
    exec (.and x y) s = .next (((s.writeReg x (s.readReg x &&& s.readReg y)).writePc (s.pc + 2)).report (.step .normal)) := rfl

theorem exec_xor (x y : RegNo) :
    exec (.xor x y) s = .next (((s.writeReg x (s.readReg x ^^^ s.readReg y)).writePc (s.pc + 2)).report (.step .normal)) := rfl

theorem exec_addReg (x y : RegNo) :
    exec (.addReg x y) s = .next (((s.writeWithFlag x (s.readReg x + s.readReg y) (carryOut (s.readReg x) (s.readReg y))).writePc (s.pc + 2)).report (.step .normal)) := rfl

theorem exec_sub (x y : RegNo) :
    exec (.sub x y) s = .next (((s.writeWithFlag x (s.readReg x - s.readReg y) (noBorrow (s.readReg x) (s.readReg y))).writePc (s.pc + 2)).report (.step .normal)) := rfl

theorem exec_shr (x y : RegNo) :
    exec (.shr x y) s = .next (((s.writeWithFlag x (s.readReg x >>> 1) (shiftedOutRight (s.readReg x))).writePc (s.pc + 2)).report (.step .normal)) := rfl

theorem exec_subn (x y : RegNo) :
    exec (.subn x y) s = .next (((s.writeWithFlag x (s.readReg y - s.readReg x) (noBorrow (s.readReg y) (s.readReg x))).writePc (s.pc + 2)).report (.step .normal)) := rfl

theorem exec_shl (x y : RegNo) :
    exec (.shl x y) s = .next (((s.writeWithFlag x (s.readReg x <<< 1) (shiftedOutLeft (s.readReg x))).writePc (s.pc + 2)).report (.step .normal)) := rfl

theorem exec_rnd (x : RegNo) (kk : Byte) :
    exec (.rnd x kk) s = .next (((s.writeReg x (s.port.rnd &&& kk)).writePc (s.pc + 2)).report (.step .normal)) := rfl

theorem exec_ldI (nnn : Addr) :
    exec (.ldI nnn) s = .next (((s.writeIndex (nnn.setWidth 16)).writePc (s.pc + 2)).report (.step .normal)) := rfl

theorem exec_addI (x : RegNo) :
    exec (.addI x) s = .next (((s.writeIndex (s.i + (s.readReg x).setWidth 16)).writePc (s.pc + 2)).report (.step .normal)) := rfl

theorem exec_ldF (x : RegNo) :
    exec (.ldF x) s = .next (((s.writeIndex (glyphAddr (s.readReg x))).writePc (s.pc + 2)).report (.step .normal)) := rfl

theorem exec_ldB (x : RegNo) :
    exec (.ldB x) s =
      .next (((s.storeItems (bcdDigits (s.readReg x))).writePc (s.pc + 2)).report (.step .normal)) := by
  rw [← State.storeItems_pc s (bcdDigits (s.readReg x))]; rfl

theorem exec_storeRegs (x : RegNo) :
    exec (.storeRegs x) s =
      .next (((s.storeItems ((regsUpTo x).map s.readReg)).writePc (s.pc + 2)).report (.step .normal)) := by
  rw [← State.storeItems_pc s ((regsUpTo x).map s.readReg)]; rfl

theorem exec_loadRegs (x : RegNo) :
    exec (.loadRegs x) s =
      .next (((s.loadItems (regsUpTo x)).writePc (s.pc + 2)).report (.step .normal)) := by
  rw [← State.loadItems_pc s (regsUpTo x)]; rfl

theorem exec_drw (x y : RegNo) (n : Nibble) :
    exec (.drw x y n) s = .next (((((s.writeScreen (xorPixels s.fb (s.drawTargets x y n)).1).writeReg VF (flagByte (xorPixels s.fb (s.drawTargets x y n)).2)).writeDrawFlag true).writePc (s.pc + 2)).report (.step .normal)) := rfl

theorem exec_skp (x : RegNo) :
    exec (.skp x) s = .next ((s.writePc (if s.readKey (keyOf (s.readReg x)) then s.pc + 4 else s.pc + 2)).report (.step .normal)) := rfl

theorem exec_sknp (x : RegNo) :
    exec (.sknp x) s = .next ((s.writePc (if !s.readKey (keyOf (s.readReg x)) then s.pc + 4 else s.pc + 2)).report (.step .normal)) := rfl

theorem exec_ldFromDt (x : RegNo) :
    exec (.ldFromDt x) s = .next (((s.writeReg x s.dt).writePc (s.pc + 2)).report (.step .normal)) := rfl

theorem exec_ldDt (x : RegNo) :
    exec (.ldDt x) s = .next (((s.writeDelay (s.readReg x)).writePc (s.pc + 2)).report (.step .normal)) := rfl

theorem exec_ldSt (x : RegNo) :
    exec (.ldSt x) s = .next (((s.writeSound (s.readReg x)).writePc (s.pc + 2)).report (.step .normal)) := rfl

theorem exec_sysAddr (nnn : Addr) :
    exec (.sysAddr nnn) s = .next ((s.writePc (s.pc + 2)).report (.step (.unknownOpcode (packNNN 0x0#4 nnn)))) := rfl

theorem exec_jpV0 (nnn : Addr) :
    exec (.jpV0 nnn) s = .next ((s.writePc (s.pc + 2)).report (.step (.unknownOpcode (packNNN 0xB#4 nnn)))) := rfl

theorem exec_unknown (w : Word) :
    exec (.unknown w) s = .next ((s.writePc (s.pc + 2)).report (.step (.unknownOpcode w))) := rfl

/-- RET on an empty stack. -/
theorem exec_ret_empty (h : s.sp.val = 0) :
    exec .ret s = .next ((s.writePc (s.pc + 2)).report (.step .stackUnderflow)) := if_pos h

/-- RET on a stack with an entry. -/
theorem exec_ret_pop (h : s.sp.val ≠ 0) :
    exec .ret s = .next ((s.dropTop.writePc s.top).report (.step .normal)) := if_neg h

/-- CALL on a full stack. -/
theorem exec_call_full (nnn : Addr) (h : s.sp.val = 16) :
    exec (.call nnn) s = .next ((s.writePc (s.pc + 2)).report (.step .stackOverflow)) := if_pos h

/-- CALL on a stack that is not full. -/
theorem exec_call_push (nnn : Addr) (h : s.sp.val ≠ 16) :
    exec (.call nnn) s = .next (((s.push (s.pc + 2)).writePc nnn).report (.step .normal)) := if_neg h

/-- LD Vx,K with no key pressed. -/
theorem exec_ldKey_blocked (x : RegNo) (h : s.firstKey = none) :
    exec (.ldKey x) s = .next (s.report (.step .blockedOnKey)) := by
  simp only [exec, execLdKey, h]; rfl

/-- LD Vx,K with a key pressed. -/
theorem exec_ldKey_pressed (x k : RegNo) (h : s.firstKey = some k) :
    exec (.ldKey x) s = .next (((s.writeReg x (k.setWidth 8)).writePc (s.pc + 2)).report (.step .normal)) := by
  simp only [exec, execLdKey, h]; rfl

/-- With no request pending, the machine steps the executor with a free random byte. -/
theorem step_of_no_request (h : s.port.requests = []) :
    step s = executorStep (Config.rnd s.port.draws) s.countDraw := by
  rw [step, h]

/-- With requests pending, the machine serves the oldest. -/
theorem step_of_request (r : Request) (rs : List Request) (h : s.port.requests = r :: rs) :
    step s = serve r (s.withRequests rs) := by
  rw [step, h]

/-- A run of one transition more, when the first one goes on. -/
theorem run_succ_of_next {s t : State} (h : step s = .next t) (n : Nat) :
    Host.Core.run Sys2Proof.core (n + 1) s = Host.Core.run Sys2Proof.core n t := by
  have h' : Sys2Proof.core.step s = .next t := h
  simp only [Host.Core.run, h']

end Sys2Proof.Machine
end

