-- ==== Sys2Proof/Laws/PerInstr.lean ====
section
/-! SUPPORT. Facts proved once per instruction. Family Opcode: the encoded word lies in the rows that
30_encoding.md R54 gives the instruction's name: `word & mask = match`. -/

namespace Sys2Proof.Laws.Opcode

/-- The word of the instruction has the fixed bits of every row of the opcode map that bears its name. -/
def Statement (i : Instr) : Prop :=
  ∀ row ∈ opcodeRows, row.mnemonic = i.mnemonic → encode i &&& row.mask = row.key

/-- A statement about an instruction whose rows all have one mask and match. -/
theorem of_row {i : Instr} (mask key : Word)
    (hrows : ∀ row ∈ opcodeRows, row.mnemonic = i.mnemonic → row.mask = mask ∧ row.key = key)
    (h : encode i &&& mask = key) : Statement i := by
  intro row hr hm
  obtain ⟨h1, h2⟩ := hrows row hr hm
  rw [h1, h2, h]

theorem and_packNNN (op : Nibble) (nnn : Addr) : packNNN op nnn &&& 0xF000#16 = packNNN op 0#12 := by
  rw [show 0xF000#16 = 0xF#4 ++ 0x000#12 from rfl, packNNN, BitVec.and_append, BitVec.and_zero,
    show 0xF#4 = BitVec.allOnes 4 from rfl, BitVec.and_allOnes]
  rfl

theorem and_packXKK (op : Nibble) (x : RegNo) (kk : Byte) :
    packXKK op x kk &&& 0xF000#16 = packXKK op 0#4 0#8 ∧ packXKK op x kk &&& 0xF0FF#16 = packXKK op 0#4 kk := by
  constructor
  · rw [show 0xF000#16 = (0xF#4 ++ 0x0#4) ++ 0x00#8 from rfl, packXKK, BitVec.and_append, BitVec.and_append,
      BitVec.and_zero, BitVec.and_zero, show 0xF#4 = BitVec.allOnes 4 from rfl, BitVec.and_allOnes]
    rfl
  · rw [show 0xF0FF#16 = (0xF#4 ++ 0x0#4) ++ 0xFF#8 from rfl, packXKK, BitVec.and_append, BitVec.and_append,
      BitVec.and_zero, show 0xF#4 = BitVec.allOnes 4 from rfl, BitVec.and_allOnes,
      show 0xFF#8 = BitVec.allOnes 8 from rfl, BitVec.and_allOnes]
    rfl

theorem and_packXYN (op : Nibble) (x y : RegNo) (n : Nibble) :
    packXYN op x y n &&& 0xF000#16 = packXYN op 0#4 0#4 0#4 ∧
      packXYN op x y n &&& 0xF00F#16 = packXYN op 0#4 0#4 n := by
  constructor
  · rw [show 0xF000#16 = (0xF#4 ++ 0x0#4) ++ (0x0#4 ++ 0x0#4) from rfl, packXYN, BitVec.and_append, BitVec.and_append,
      BitVec.and_append, BitVec.and_zero, BitVec.and_zero, BitVec.and_zero, show 0xF#4 = BitVec.allOnes 4 from rfl,
      BitVec.and_allOnes]
    rfl
  · rw [show 0xF00F#16 = (0xF#4 ++ 0x0#4) ++ (0x0#4 ++ 0xF#4) from rfl, packXYN, BitVec.and_append, BitVec.and_append,
      BitVec.and_append, BitVec.and_zero, BitVec.and_zero, show 0xF#4 = BitVec.allOnes 4 from rfl,
      BitVec.and_allOnes, BitVec.and_allOnes]
    rfl

theorem cls : Statement .cls := of_row 0xFFFF 0x00E0 (by decide) (by decide)
theorem ret : Statement .ret := of_row 0xFFFF 0x00EE (by decide) (by decide)
theorem jp (nnn : Addr) : Statement (.jp nnn) :=
  of_row 0xF000 0x1000 (by show ∀ row ∈ opcodeRows, row.mnemonic = "JP_addr" → _; decide) (and_packNNN _ _)
theorem call (nnn : Addr) : Statement (.call nnn) :=
  of_row 0xF000 0x2000 (by show ∀ row ∈ opcodeRows, row.mnemonic = "CALL_addr" → _; decide) (and_packNNN _ _)
theorem seByte (x : RegNo) (kk : Byte) : Statement (.seByte x kk) :=
  of_row 0xF000 0x3000 (by show ∀ row ∈ opcodeRows, row.mnemonic = "SE_Vx_byte" → _; decide) (and_packXKK _ _ _).1
theorem sneByte (x : RegNo) (kk : Byte) : Statement (.sneByte x kk) :=
  of_row 0xF000 0x4000 (by show ∀ row ∈ opcodeRows, row.mnemonic = "SNE_Vx_byte" → _; decide) (and_packXKK _ _ _).1
theorem seReg (x y : RegNo) (ign : Nibble) : Statement (.seReg x y ign) :=
  of_row 0xF000 0x5000 (by show ∀ row ∈ opcodeRows, row.mnemonic = "SE_Vx_Vy" → _; decide) (and_packXYN _ _ _ _).1
theorem ldByte (x : RegNo) (kk : Byte) : Statement (.ldByte x kk) :=
  of_row 0xF000 0x6000 (by show ∀ row ∈ opcodeRows, row.mnemonic = "LD_Vx_byte" → _; decide) (and_packXKK _ _ _).1
theorem addByte (x : RegNo) (kk : Byte) : Statement (.addByte x kk) :=
  of_row 0xF000 0x7000 (by show ∀ row ∈ opcodeRows, row.mnemonic = "ADD_Vx_byte" → _; decide) (and_packXKK _ _ _).1
theorem ldReg (x y : RegNo) : Statement (.ldReg x y) :=
  of_row 0xF00F 0x8000 (by show ∀ row ∈ opcodeRows, row.mnemonic = "LD_Vx_Vy" → _; decide) (and_packXYN _ _ _ _).2
theorem or (x y : RegNo) : Statement (.or x y) :=
  of_row 0xF00F 0x8001 (by show ∀ row ∈ opcodeRows, row.mnemonic = "OR_Vx_Vy" → _; decide) (and_packXYN _ _ _ _).2
theorem and (x y : RegNo) : Statement (.and x y) :=
  of_row 0xF00F 0x8002 (by show ∀ row ∈ opcodeRows, row.mnemonic = "AND_Vx_Vy" → _; decide) (and_packXYN _ _ _ _).2
theorem xor (x y : RegNo) : Statement (.xor x y) :=
  of_row 0xF00F 0x8003 (by show ∀ row ∈ opcodeRows, row.mnemonic = "XOR_Vx_Vy" → _; decide) (and_packXYN _ _ _ _).2
theorem addReg (x y : RegNo) : Statement (.addReg x y) :=
  of_row 0xF00F 0x8004 (by show ∀ row ∈ opcodeRows, row.mnemonic = "ADD_Vx_Vy" → _; decide) (and_packXYN _ _ _ _).2
theorem sub (x y : RegNo) : Statement (.sub x y) :=
  of_row 0xF00F 0x8005 (by show ∀ row ∈ opcodeRows, row.mnemonic = "SUB_Vx_Vy" → _; decide) (and_packXYN _ _ _ _).2
theorem shr (x y : RegNo) : Statement (.shr x y) :=
  of_row 0xF00F 0x8006 (by show ∀ row ∈ opcodeRows, row.mnemonic = "SHR_Vx" → _; decide) (and_packXYN _ _ _ _).2
theorem subn (x y : RegNo) : Statement (.subn x y) :=
  of_row 0xF00F 0x8007 (by show ∀ row ∈ opcodeRows, row.mnemonic = "SUBN_Vx_Vy" → _; decide) (and_packXYN _ _ _ _).2
theorem shl (x y : RegNo) : Statement (.shl x y) :=
  of_row 0xF00F 0x800E (by show ∀ row ∈ opcodeRows, row.mnemonic = "SHL_Vx" → _; decide) (and_packXYN _ _ _ _).2
theorem sneReg (x y : RegNo) (ign : Nibble) : Statement (.sneReg x y ign) :=
  of_row 0xF000 0x9000 (by show ∀ row ∈ opcodeRows, row.mnemonic = "SNE_Vx_Vy" → _; decide) (and_packXYN _ _ _ _).1
theorem ldI (nnn : Addr) : Statement (.ldI nnn) :=
  of_row 0xF000 0xA000 (by show ∀ row ∈ opcodeRows, row.mnemonic = "LD_I_addr" → _; decide) (and_packNNN _ _)
theorem rnd (x : RegNo) (kk : Byte) : Statement (.rnd x kk) :=
  of_row 0xF000 0xC000 (by show ∀ row ∈ opcodeRows, row.mnemonic = "RND_Vx_byte" → _; decide) (and_packXKK _ _ _).1
theorem drw (x y : RegNo) (n : Nibble) : Statement (.drw x y n) :=
  of_row 0xF000 0xD000 (by show ∀ row ∈ opcodeRows, row.mnemonic = "DRW_Vx_Vy_n" → _; decide) (and_packXYN _ _ _ _).1
theorem skp (x : RegNo) : Statement (.skp x) :=
  of_row 0xF0FF 0xE09E (by show ∀ row ∈ opcodeRows, row.mnemonic = "SKP_Vx" → _; decide) (and_packXKK _ _ _).2
theorem sknp (x : RegNo) : Statement (.sknp x) :=
  of_row 0xF0FF 0xE0A1 (by show ∀ row ∈ opcodeRows, row.mnemonic = "SKNP_Vx" → _; decide) (and_packXKK _ _ _).2
theorem ldFromDt (x : RegNo) : Statement (.ldFromDt x) :=
  of_row 0xF0FF 0xF007 (by show ∀ row ∈ opcodeRows, row.mnemonic = "LD_Vx_DT" → _; decide) (and_packXKK _ _ _).2
theorem ldKey (x : RegNo) : Statement (.ldKey x) :=
  of_row 0xF0FF 0xF00A (by show ∀ row ∈ opcodeRows, row.mnemonic = "LD_Vx_K" → _; decide) (and_packXKK _ _ _).2
theorem ldDt (x : RegNo) : Statement (.ldDt x) :=
  of_row 0xF0FF 0xF015 (by show ∀ row ∈ opcodeRows, row.mnemonic = "LD_DT_Vx" → _; decide) (and_packXKK _ _ _).2
theorem ldSt (x : RegNo) : Statement (.ldSt x) :=
  of_row 0xF0FF 0xF018 (by show ∀ row ∈ opcodeRows, row.mnemonic = "LD_ST_Vx" → _; decide) (and_packXKK _ _ _).2
theorem addI (x : RegNo) : Statement (.addI x) :=
  of_row 0xF0FF 0xF01E (by show ∀ row ∈ opcodeRows, row.mnemonic = "ADD_I_Vx" → _; decide) (and_packXKK _ _ _).2
theorem ldF (x : RegNo) : Statement (.ldF x) :=
  of_row 0xF0FF 0xF029 (by show ∀ row ∈ opcodeRows, row.mnemonic = "LD_F_Vx" → _; decide) (and_packXKK _ _ _).2
theorem ldB (x : RegNo) : Statement (.ldB x) :=
  of_row 0xF0FF 0xF033 (by show ∀ row ∈ opcodeRows, row.mnemonic = "LD_B_Vx" → _; decide) (and_packXKK _ _ _).2
theorem storeRegs (x : RegNo) : Statement (.storeRegs x) :=
  of_row 0xF0FF 0xF055 (by show ∀ row ∈ opcodeRows, row.mnemonic = "LD__I__Vx" → _; decide) (and_packXKK _ _ _).2
theorem loadRegs (x : RegNo) : Statement (.loadRegs x) :=
  of_row 0xF0FF 0xF065 (by show ∀ row ∈ opcodeRows, row.mnemonic = "LD_Vx__I" → _; decide) (and_packXKK _ _ _).2
theorem sysAddr (nnn : Addr) : Statement (.sysAddr nnn) := fun row hr hm =>
  absurd hm ((show ∀ row ∈ opcodeRows, row.mnemonic ≠ "SYS_addr" by decide) row hr)
theorem jpV0 (nnn : Addr) : Statement (.jpV0 nnn) := fun row hr hm =>
  absurd hm ((show ∀ row ∈ opcodeRows, row.mnemonic ≠ "JP_V0_addr" by decide) row hr)
theorem unknown (w : Word) : Statement (.unknown w) := fun row hr hm =>
  absurd hm ((show ∀ row ∈ opcodeRows, row.mnemonic ≠ "UNKNOWN" by decide) row hr)

/-- The family's lemmas together. -/
theorem all (i : Instr) : Statement i := by
  cases i with
  | cls => exact cls
  | ret => exact ret
  | jp nnn => exact jp nnn
  | call nnn => exact call nnn
  | seByte x kk => exact seByte x kk
  | sneByte x kk => exact sneByte x kk
  | seReg x y ign => exact seReg x y ign
  | ldByte x kk => exact ldByte x kk
  | addByte x kk => exact addByte x kk
  | ldReg x y => exact ldReg x y
  | or x y => exact or x y
  | and x y => exact and x y
  | xor x y => exact xor x y
  | addReg x y => exact addReg x y
  | sub x y => exact sub x y
  | shr x y => exact shr x y
  | subn x y => exact subn x y
  | shl x y => exact shl x y
  | sneReg x y ign => exact sneReg x y ign
  | ldI nnn => exact ldI nnn
  | rnd x kk => exact rnd x kk
  | drw x y n => exact drw x y n
  | skp x => exact skp x
  | sknp x => exact sknp x
  | ldFromDt x => exact ldFromDt x
  | ldKey x => exact ldKey x
  | ldDt x => exact ldDt x
  | ldSt x => exact ldSt x
  | addI x => exact addI x
  | ldF x => exact ldF x
  | ldB x => exact ldB x
  | storeRegs x => exact storeRegs x
  | loadRegs x => exact loadRegs x
  | sysAddr nnn => exact sysAddr nnn
  | jpV0 nnn => exact jpV0 nnn
  | unknown w => exact unknown w

end Sys2Proof.Laws.Opcode
end

