-- ==== Sys2Proof/Tests/Slice0.lean ====
section
/-! SUPPORT. The model's own tests. Expected values come from the spec: the encodings of 30_encoding.md R54 and the vectors
of 95_test_vectors.md, named in each test's comment. Then a witness for the hypotheses of every statement that has some. -/

namespace Sys2Proof.Tests

open Sys2Proof.Machine

/-! ## Well-formedness: each check refuses an ill-formed term -/

/-- 00E0 is CLS, not SYS 0x0E0 (R55). -/
theorem test_wf_refuses_sys_of_cls : (Instr.sysAddr 0x0E0#12).wf = false := by decide

/-- 00EE is RET, not SYS 0x0EE (R55). -/
theorem test_wf_refuses_sys_of_ret : (Instr.sysAddr 0x0EE#12).wf = false := by decide

/-- Words of defined rows are not Unknown, in each of the families 8, E and F, and outside them (R60). -/
theorem test_wf_refuses_unknown_of_defined_words :
    (Instr.unknown 0x8014#16).wf = false ∧ (Instr.unknown 0xE09E#16).wf = false ∧
      (Instr.unknown 0xF065#16).wf = false ∧ (Instr.unknown 0x6005#16).wf = false ∧
      (Instr.unknown 0xB123#16).wf = false := by decide

/-- Unassigned words of the three families are Unknown (T153, T156, T160). -/
theorem test_wf_accepts_unassigned :
    (Instr.unknown 0x8018#16).wf = true ∧ (Instr.unknown 0xE09F#16).wf = true ∧
      (Instr.unknown 0xF11F#16).wf = true := by decide

/-! ## Decoding: a word of every row, written out from the encodings of 30_encoding.md R54 -/

theorem test_decode_control :
    decodeWord 0b0000000011101110#16 = .ret ∧ decodeWord 0b0001001000110101#16 = .jp 0x235#12 ∧
      decodeWord 0b0010001100000000#16 = .call 0x300#12 ∧ decodeWord 0b0011001100101010#16 = .seByte 3#4 0x2A#8 ∧
      decodeWord 0b0100001100101010#16 = .sneByte 3#4 0x2A#8 ∧ decodeWord 0b0101000100100111#16 = .seReg 1#4 2#4 7#4 ∧
      decodeWord 0b1001000100101111#16 = .sneReg 1#4 2#4 0xF#4 := by decide

theorem test_decode_alu :
    decodeWord 0b0110101001111111#16 = .ldByte 0xA#4 0x7F#8 ∧ decodeWord 0b0111001000100000#16 = .addByte 2#4 0x20#8 ∧
      decodeWord 0b1000000000010000#16 = .ldReg 0#4 1#4 ∧ decodeWord 0b1000000000010001#16 = .or 0#4 1#4 ∧
      decodeWord 0b1000000000010010#16 = .and 0#4 1#4 ∧ decodeWord 0b1000000000010011#16 = .xor 0#4 1#4 ∧
      decodeWord 0b1000000000010100#16 = .addReg 0#4 1#4 ∧ decodeWord 0b1000000000010101#16 = .sub 0#4 1#4 ∧
      decodeWord 0b1000010010100110#16 = .shr 4#4 0xA#4 ∧ decodeWord 0b1000000000010111#16 = .subn 0#4 1#4 ∧
      decodeWord 0b1000010010101110#16 = .shl 4#4 0xA#4 ∧ decodeWord 0b1100001100001111#16 = .rnd 3#4 0x0F#8 := by decide

theorem test_decode_index_memory :
    decodeWord 0b1010001011110000#16 = .ldI 0x2F0#12 ∧ decodeWord 0b1111001000011110#16 = .addI 2#4 ∧
      decodeWord 0b1111000000101001#16 = .ldF 0#4 ∧ decodeWord 0b1111001100110011#16 = .ldB 3#4 ∧
      decodeWord 0b1111001001010101#16 = .storeRegs 2#4 ∧ decodeWord 0b1111001001100101#16 = .loadRegs 2#4 := by decide

theorem test_decode_display_keypad_timers :
    decodeWord 0b0000000011100000#16 = .cls ∧ decodeWord 0b1101000100100101#16 = .drw 1#4 2#4 5#4 ∧
      decodeWord 0b1110010110011110#16 = .skp 5#4 ∧ decodeWord 0b1110010110100001#16 = .sknp 5#4 ∧
      decodeWord 0b1111001100001010#16 = .ldKey 3#4 ∧ decodeWord 0b1111001000000111#16 = .ldFromDt 2#4 ∧
      decodeWord 0b1111001000010101#16 = .ldDt 2#4 ∧ decodeWord 0b1111001000011000#16 = .ldSt 2#4 := by decide

/-- Unknown words (T148, T150, T151, T155, T157, T162). -/
theorem test_decode_unknown :
    decodeWord 0x00E1#16 = .sysAddr 0x0E1#12 ∧ decodeWord 0x01E0#16 = .sysAddr 0x1E0#12 ∧
      decodeWord 0x0123#16 = .sysAddr 0x123#12 ∧ decodeWord 0xB123#16 = .jpV0 0x123#12 ∧
      decodeWord 0xE10E#16 = .unknown 0xE10E#16 ∧ decodeWord 0xFFFF#16 = .unknown 0xFFFF#16 := by decide

/-- The table's numbering of a word, and bytes that end too soon. -/
theorem test_decode_table_word_and_bytes :
    decodeTableWord 16 0x00E0 = some .cls ∧ decodeTableWord 16 0x8014 = some (.addReg 0#4 1#4) ∧
      decode [0x80#8] = .error (.truncated 1) := by decide

/-! ## Instructions: one step, vectors of 95_test_vectors.md -/

/-- The state after one transition. -/
def after (s : State) : State :=
  match step s with
  | .next t => t
  | .fault _ | .refused _ => s

/-- One step of word `w`, stored at `pc`. -/
def run (w : Nat) (s : State) : State := after (s.withFetchWord 16 w)

/-- The reset state with some registers set. -/
def regs (l : List (RegNo × Byte)) : State := l.foldl (fun s p => s.writeReg p.1 p.2) State.reset

/-- The reset state with bytes at an address, and `I` there. -/
def data (a : Nat) (bs : List Byte) (s : State) : State := (s.memWriteList a bs).writeIndex (BitVec.ofNat 16 a)

/-- T8: CALL pushes the address after itself. -/
theorem test_call : (run 0x2300 (State.reset.writePc 0x202)).stack[0] = 0x204 ∧
    (run 0x2300 (State.reset.writePc 0x202)).sp = 1 ∧ (run 0x2300 (State.reset.writePc 0x202)).pc = 0x300 := by decide

/-- T11: at the top of memory the pushed address wraps to 0. -/
theorem test_call_wraps : (run 0x2300 ((State.reset.push 0xAAA).dropTop.writePc 0xFFE)).stack[0] = 0x000 := by decide

/-- T3: RET pops the newest entry, odd or not. -/
theorem test_ret : (run 0x00EE (((State.reset.push 0x204).push 0x30B).writePc 0x400)).pc = 0x30B := by decide

/-- T2: RET on an empty stack. -/
theorem test_ret_underflow : (run 0x00EE (State.reset.writePc 0x300)).pc = 0x302 ∧
    (run 0x00EE (State.reset.writePc 0x300)).port.report = .step .stackUnderflow := by decide

/-- T10: CALL on a full stack. -/
theorem test_call_overflow :
    let s := ((List.replicate 16 0x202#12).foldl State.push State.reset).writePc 0x240
    (run 0x2300 s).pc = 0x242 ∧ (run 0x2300 s).sp = 16 ∧ (run 0x2300 s).port.report = .step .stackOverflow := by decide

/-- T4: JP to an odd address. -/
theorem test_jp : (run 0x1235 State.reset).pc = 0x235 := by decide

/-- T12, T13: SE Vx,byte. -/
theorem test_se_byte : (run 0x332A (regs [(3, 0x2A)])).pc = 0x204 ∧ (run 0x332A (regs [(3, 0x2B)])).pc = 0x202 := by decide

/-- T15, T16: SNE Vx,byte. -/
theorem test_sne_byte : (run 0x432A (regs [(3, 0x2A)])).pc = 0x202 ∧ (run 0x432A State.reset).pc = 0x204 := by decide

/-- T20, T18: SE Vx,Vy, any low nibble. -/
theorem test_se_reg : (run 0x5127 (regs [(1, 7), (2, 7)])).pc = 0x204 ∧ (run 0x5120 (regs [(1, 7), (2, 8)])).pc = 0x202 := by
  decide

/-- T24, T22: SNE Vx,Vy, any low nibble. -/
theorem test_sne_reg : (run 0x912F (regs [(1, 7), (2, 8)])).pc = 0x204 ∧ (run 0x9120 (regs [(1, 7), (2, 7)])).pc = 0x202 := by
  decide

/-- T26: a skip wraps at the top of memory. -/
theorem test_skip_wraps : (run 0x3000 (State.reset.writePc 0xFFE)).pc = 0x002 := by decide

/-- T27: a fetch at 0xFFF takes its low byte from 0x000. -/
theorem test_fetch_wraps : (run 0x6042 (State.reset.writePc 0xFFF)).readReg 0 = 0x42 ∧
    (run 0x6042 (State.reset.writePc 0xFFF)).pc = 0x001 := by decide

/-- T29: LD Vx,byte. -/
theorem test_ld_byte : (run 0x6A7F State.reset).readReg 0xA = 0x7F := by decide

/-- T31: ADD Vx,byte wraps and leaves VF alone. -/
theorem test_add_byte : (run 0x7220 (regs [(2, 0xF0), (15, 1)])).readReg 2 = 0x10 ∧
    (run 0x7220 (regs [(2, 0xF0), (15, 1)])).readReg 15 = 1 := by decide

/-- T34: LD Vx,Vy. -/
theorem test_ld_reg : (run 0x8010 (regs [(1, 9)])).readReg 0 = 9 := by decide

/-- T37: OR leaves VF alone. -/
theorem test_or : (run 0x8011 (regs [(0, 0x0F), (1, 0xF1), (15, 1)])).readReg 0 = 0xFF ∧
    (run 0x8011 (regs [(0, 0x0F), (1, 0xF1), (15, 1)])).readReg 15 = 1 := by decide

/-- T38: AND. -/
theorem test_and : (run 0x8012 (regs [(0, 0x3C), (1, 0x0F)])).readReg 0 = 0x0C := by decide

/-- T39: XOR. -/
theorem test_xor : (run 0x8013 (regs [(0, 0xFF), (1, 0x0F)])).readReg 0 = 0xF0 := by decide

/-- T44: ADD with carry. -/
theorem test_add_reg : (run 0x8014 (regs [(0, 0xFF), (1, 0xFF)])).readReg 0 = 0xFE ∧
    (run 0x8014 (regs [(0, 0xFF), (1, 0xFF)])).readReg 15 = 1 := by decide

/-- T48: ADD VF,Vy: the flag overwrites the sum. -/
theorem test_add_reg_vf : (run 0x8F14 (regs [(15, 3), (1, 4)])).readReg 15 = 0 := by decide

/-- T54: SUB with borrow. -/
theorem test_sub : (run 0x8015 (regs [(1, 1), (15, 1)])).readReg 0 = 0xFF ∧
    (run 0x8015 (regs [(1, 1), (15, 1)])).readReg 15 = 0 := by decide

/-- T57: SUB Vx,VF: the old VF is the subtrahend. -/
theorem test_sub_vf : (run 0x80F5 (regs [(0, 5), (15, 7)])).readReg 0 = 0xFE := by decide

/-- T59: SHR ignores `Vy`. -/
theorem test_shr : (run 0x84A6 (regs [(4, 5), (10, 0xFF)])).readReg 4 = 2 ∧
    (run 0x84A6 (regs [(4, 5), (10, 0xFF)])).readReg 15 = 1 := by decide

/-- T67: SUBN with borrow. -/
theorem test_subn : (run 0x8017 (regs [(0, 0x20), (1, 0x10), (15, 1)])).readReg 0 = 0xF0 ∧
    (run 0x8017 (regs [(0, 0x20), (1, 0x10), (15, 1)])).readReg 15 = 0 := by decide

/-- T72: SHL. -/
theorem test_shl : (run 0x840E (regs [(4, 0x81)])).readReg 4 = 2 ∧ (run 0x840E (regs [(4, 0x81)])).readReg 15 = 1 := by decide

/-- T79: RND with the host's `rnd` = 0xA7. -/
theorem test_rnd : (after ((State.reset.withFetchWord 16 0xC30F).withRequests [.step 0xA7])).readReg 3 = 0x07 := by decide

/-- T84: LD I,addr. -/
theorem test_ld_i : (run 0xAFFF (State.reset.writeIndex 0x1234)).i = 0x0FFF := by decide

/-- T86: ADD I,Vx past 0xFFF. -/
theorem test_add_i : (run 0xF21E ((regs [(2, 1)]).writeIndex 0x0FFF)).i = 0x1000 := by decide

/-- T89, T93: LD F,Vx, the whole of `Vx`. -/
theorem test_ld_f : (run 0xF029 (regs [(0, 0x0A)])).i = 0x0082 ∧ (run 0xF029 (regs [(0, 0xFF)])).i = 0x054B := by decide

/-- T94, the document's case: 254 is 2, 5, 4. -/
theorem test_ld_b : let t := run 0xF333 ((regs [(3, 0xFE)]).writeIndex 0x300)
    t.memRead 0x300 = 2 ∧ t.memRead 0x301 = 5 ∧ t.memRead 0x302 = 4 := by decide

/-- T99: the third digit wraps to 0x000. -/
theorem test_ld_b_wraps : let t := run 0xF333 ((regs [(3, 0x7B)]).writeIndex 0xFFE)
    t.memRead 0xFFE = 1 ∧ t.memRead 0xFFF = 2 ∧ t.memRead 0x000 = 3 := by decide

/-- T101: LD [I],V2 stores V0 to V2 and nothing after; `I` stays. -/
theorem test_store_regs : let t := run 0xF255 ((regs [(0, 1), (1, 2), (2, 3), (3, 4)]).writeIndex 0x300)
    t.memRead 0x300 = 1 ∧ t.memRead 0x302 = 3 ∧ t.memRead 0x303 = 0 ∧ t.i = 0x300 := by decide

/-- T107: LD V4,[I] from the font, glyph 0. -/
theorem test_load_regs : let t := run 0xF465 (State.reset.writeIndex 0x50)
    t.readReg 0 = 0xF0 ∧ t.readReg 1 = 0x90 ∧ t.readReg 4 = 0xF0 ∧ t.i = 0x50 := by decide

/-- T112: CLS of a blank screen sets the draw flag. -/
theorem test_cls : (run 0x00E0 State.reset).drawFlag = true := by decide

/-- T113: DRW of glyph 0 at (0, 0). -/
theorem test_drw : let t := run 0xD015 (State.reset.writeIndex 0x50)
    t.fb[3 + 64 * 1] = true ∧ t.fb[2 + 64 * 1] = false ∧ t.readReg 15 = 0 ∧ t.drawFlag = true := by decide

/-- T115: a pixel past column 63 lands in the next row. -/
theorem test_drw_spills : let t := run 0xD011 (data 0x300 [0xFF] (regs [(0, 0x3E), (1, 5)]))
    t.fb[63 + 64 * 5] = true ∧ t.fb[0 + 64 * 6] = true ∧ t.fb[0 + 64 * 5] = false := by decide +kernel

/-- T131, T129: SKP takes the low four bits of `Vx`. -/
theorem test_skp : (run 0xE59E ((regs [(5, 0x1A)]).writeKey 0xA true)).pc = 0x204 ∧
    (run 0xE59E (regs [(5, 7)])).pc = 0x202 := by decide

/-- T132, T133: SKNP. -/
theorem test_sknp : (run 0xE5A1 (regs [(5, 7)])).pc = 0x204 ∧
    (run 0xE5A1 ((regs [(5, 7)]).writeKey 7 true)).pc = 0x202 := by decide

/-- T137: with several keys pressed, the lowest. -/
theorem test_ld_key :
    (run 0xF30A (((State.reset.writeKey 9 true).writeKey 3 true).writeKey 15 true)).readReg 3 = 3 := by decide

/-- T135: with no key pressed, nothing changes. -/
theorem test_ld_key_blocks : (run 0xF30A (regs [(3, 0x55)])).pc = 0x200 ∧ (run 0xF30A (regs [(3, 0x55)])).readReg 3 = 0x55 ∧
    (run 0xF30A (regs [(3, 0x55)])).port.report = .step .blockedOnKey := by decide

/-- T140: LD Vx,DT. -/
theorem test_ld_from_dt : (run 0xF207 (State.reset.writeDelay 0x3C)).readReg 2 = 0x3C := by decide

/-- T142: LD DT,Vx. -/
theorem test_ld_dt : (run 0xF215 (regs [(2, 0x3C)])).dt = 0x3C := by decide

/-- T144: LD ST,Vx. -/
theorem test_ld_st : (run 0xF218 (regs [(2, 2)])).st = 2 := by decide

/-- T162, T151, T155: Unknown words are reported, with the word, and passed. -/
theorem test_unknown : (run 0xFFFF State.reset).pc = 0x202 ∧
    (run 0xFFFF State.reset).port.report = .step (.unknownOpcode 0xFFFF) ∧
    (run 0x0123 State.reset).port.report = .step (.unknownOpcode 0x0123) ∧
    (run 0xB123 State.reset).port.report = .step (.unknownOpcode 0xB123) ∧
    (run 0xB123 State.reset).port.outcomeWord = 0xB123 ∧ (run 0xB123 State.reset).pc = 0x202 := by decide

/-- Z2: reset, then a step with nothing loaded. -/
theorem test_reset_runs_zeroed_memory : (after State.reset).pc = 0x202 ∧
    (after State.reset).port.report = .step (.unknownOpcode 0x0000) := by decide

/-! ## The host's operations -/

/-- One served request. -/
def served (r : Request) (s : State) : State := after (s.withRequests [r])

/-- K6: both timers reach 0, with a beep; K3: DT alone, without. -/
theorem test_tick : (served .tick ((State.reset.writeDelay 1).writeSound 1)).port.report = .tick true ∧
    (served .tick ((State.reset.writeDelay 1).writeSound 1)).dt = 0 ∧
    (served .tick (State.reset.writeDelay 1)).port.report = .tick false ∧
    (served .tick State.reset).st = 0 := by decide

/-- L5: a second load leaves the tail of the first. -/
theorem test_load : let t := served (.load [9, 9]) (served (.load [1, 2, 3]) State.reset)
    t.memRead 0x200 = 9 ∧ t.memRead 0x201 = 9 ∧ t.memRead 0x202 = 3 ∧ t.port.report = .load .ok ∧ t.pc = 0x200 := by decide

/-- H1, H4, H6: a key press, `draw_clear`, a read. -/
theorem test_host_ops : (served (.keyWrite 0xA true) State.reset).readKey 0xA = true ∧
    (served .drawClear (State.reset.writeDrawFlag true)).drawFlag = false ∧
    (served .readDrawFlag (State.reset.writeDrawFlag true)).port.report = .drawFlag true := by decide

/-- Z1: the first and the last glyph after reset, and a cell beside the font. -/
theorem test_reset_font : State.reset.memRead 0x050 = 0xF0 ∧ State.reset.memRead 0x056 = 0x60 ∧
    State.reset.memRead 0x09F = 0x80 ∧ State.reset.memRead 0x0A0 = 0 ∧ State.reset.memRead 0x04F = 0 := by decide

/-- 60_exceptions.md R160: the outcome codes. -/
theorem test_outcome_codes : StepOutcome.normal.code = 0 ∧ StepOutcome.blockedOnKey.code = 1 ∧
    (StepOutcome.unknownOpcode 0).code = 2 ∧ StepOutcome.stackOverflow.code = 3 ∧
    StepOutcome.stackUnderflow.code = 4 := by decide

/-- 93_implementation_defined.md U6, U16, U7: the open cases a step falls under. -/
theorem test_open_cases : openCases (.skp 5) (regs [(5, 0x1A)]) = [.keyAbove15] ∧
    openCases (.seReg 1 2 7) State.reset = [.ignoredNibble] ∧
    openCases (.ldB 3) (State.reset.writeIndex 0xFFE) = [.accessPastTop] ∧
    openCases (.ldByte 0 1) (State.reset.writePc 0xFFE) = [.pcPastTop] ∧ openCases (.ldByte 0 1) State.reset = [] := by
  decide

/-! ## Witnesses: the hypotheses of each statement are met together -/

theorem witness_DecodeInvertsEncode :
    (Instr.sysAddr 0x0E1#12).wf = true ∧ (Instr.unknown 0xF066#16).wf = true ∧ (Instr.drw 15 15 15).wf = true := by decide

/-- The reset state, where a word stands at `pc`, with no request and with a `step` request of the host. -/
theorem witness_StepRunsDecodedInstruction :
    (∃ s : State, ∃ w : Word, w = s.memRead s.pc.toNat ++ s.memRead ((s.pc.toNat + 1) % 4096) ∧ s.port.requests = []) ∧
      (∃ s : State, ∃ w : Word, w = s.memRead s.pc.toNat ++ s.memRead ((s.pc.toNat + 1) % 4096) ∧
        ∃ rnd rs, s.port.requests = .step rnd :: rs) :=
  ⟨⟨State.reset, _, rfl, rfl⟩, ⟨(State.reset.writePc 0xFFF).withRequests [.step 0xA7], _, rfl, 0xA7, [], rfl⟩⟩

theorem witness_MemoryStaysCanonical : ∃ s t : State, s.Inv ∧ step s = .next t :=
  ⟨(regs [(3, 0xFE)]).withFetchWord 16 0xF333, _, by unfold State.Inv; decide, rfl⟩

theorem witness_CanonicalMemoriesAreEqual : ∃ m m' : Memory, m ≠ [] ∧ m.wf = true ∧ m'.wf = true ∧
    (∀ a, a < 4096 → cellAt m a = cellAt m' a) :=
  ⟨[(0x050, 0x01), (0xFFF, 0x02)], [(0x050, 0x01), (0xFFF, 0x02)], by decide, by decide, by decide, fun _ _ => rfl⟩

theorem witness_StepFrame : (∃ s t : State, StepsExecutor s ∧ step s = .next t) ∧
    ∃ s t : State, s.port.requests ≠ [] ∧ StepsExecutor s ∧ step s = .next t :=
  ⟨⟨State.reset, _, .inl rfl, rfl⟩, ⟨State.reset.withRequests [.step 1], _, by decide, .inr ⟨1, [], rfl⟩, rfl⟩⟩

theorem witness_ErrorsChangeOnlyPc :
    (∃ s : State, Instr.ret = .ret ∧ s.sp.val = 0) ∧
    (∃ (nnn : Addr) (s : State), Instr.call nnn = .call nnn ∧ s.sp.val = 16) ∧ (∃ i : Instr, i.isUnknown = true) ∧
    (∃ (i : Instr) (s t : State) (o : StepOutcome), exec i s = .next t ∧
      t.port.report = .step o ∧ o.isError = true) :=
  ⟨⟨State.reset, rfl, rfl⟩, ⟨0x300, (List.replicate 16 0x202#12).foldl State.push State.reset, rfl, by decide⟩,
    ⟨.unknown 0xFFFF, rfl⟩, ⟨.ret, State.reset, _, .stackUnderflow, rfl, rfl, rfl⟩⟩

theorem witness_OnlyFlagWritersAndDestinationsChangeVF : ∃ (i : Instr) (s t : State), exec i s = .next t :=
  ⟨.addReg 15 15, regs [(15, 0x80)], _, rfl⟩

/-- Both clauses of RET, the second at one entry and at sixteen. -/
theorem witness_RetPopsOrReportsUnderflow : (∃ s : State, s.sp.val = 0) ∧ (∃ s : State, s.sp.val = 0 + 1) ∧
    ∃ s : State, s.sp.val = 15 + 1 :=
  ⟨⟨State.reset, rfl⟩, ⟨State.reset.push 0x204, rfl⟩,
    ⟨(List.replicate 16 0x202#12).foldl State.push State.reset, by decide⟩⟩

/-- Both clauses of CALL: a full stack, and fifteen entries. -/
theorem witness_CallPushesOrReportsOverflow : (∃ s : State, s.sp.val = 16) ∧ ∃ s : State, s.sp.val < 16 ∧ s.sp.val = 15 :=
  ⟨⟨(List.replicate 16 0x202#12).foldl State.push State.reset, by decide⟩,
    ⟨(List.replicate 15 0x202#12).foldl State.push State.reset, by decide⟩⟩

/-- Sixteen nested calls from an empty stack. -/
theorem witness_NestedCallsReturn : ∃ (as : List Addr) (s : State), as ≠ [] ∧ s.sp.val + as.length ≤ 16 ∧ as.length = 16 :=
  ⟨List.replicate 16 0x300, State.reset, by decide⟩

/-- The clause on the result of AddSetsCarry, SubtractionsSetNoBorrow and ShiftsSetShiftedOutBit: a destination that is not
VF. -/
theorem witness_destination_not_VF : ∃ x : RegNo, x ≠ VF := ⟨0xE, by decide⟩

theorem witness_RndMasksDraw : ∃ (kk : Byte) (b : Nat), b < 8 ∧ kk.getLsbD b = false := ⟨0x0F, 7, by decide⟩

theorem witness_BcdStoresDigits : ∃ s : State, s.Inv ∧ s.i = 0xFFE :=
  ⟨(regs [(3, 0x7B)]).writeIndex 0xFFE, by unfold State.Inv; decide, by decide⟩

theorem witness_StoreRegistersToMemory : ∃ (x r : RegNo) (s : State), s.Inv ∧ r.toNat ≤ x.toNat ∧ x = 15 ∧ r = 15 :=
  ⟨15, 15, State.reset.writeIndex 0xFFF, by unfold State.Inv; decide, by decide, rfl, rfl⟩

/-- Both clauses of LD Vx,[I]: a register up to `x`, and one above. -/
theorem witness_LoadRegistersFromMemory : (∃ x r : RegNo, r.toNat ≤ x.toNat) ∧ ∃ x r : RegNo, x.toNat < r.toNat :=
  ⟨⟨15, 15, by decide⟩, ⟨14, 15, by decide⟩⟩

theorem witness_StoredBytesAreFetchedNext : ∃ (x : RegNo) (s t : State) (k : Nat), s.Inv ∧
    exec (.storeRegs x) s = .next t ∧ k + 1 ≤ x.toNat :=
  ⟨1, regs [(0, 0x12), (1, 0x0E)], _, 0, by unfold State.Inv; decide, rfl, by decide⟩

/-- Both clauses on VF in DrwXorsSprite: a selected pixel that is 1, and a blank screen. -/
theorem witness_DrwXorsSprite :
    (∃ (s : State) (k : Nat) (h : k < 2048), SpriteSelects s 0 1 1 k ∧ s.fb[k] = true) ∧
      ∃ s : State, ∀ k, (h : k < 2048) → SpriteSelects s 0 1 1 k → s.fb[k] = false :=
  ⟨⟨(State.reset.writeIndex 0x50).writeScreen (Vector.replicate 2048 true), 0, by decide,
      ⟨0, 0, by decide, by decide, by decide, by decide⟩, by simp [State.writeScreen]⟩,
    ⟨State.reset, fun k h _ => by simp [State.reset]⟩⟩

/-- T113 and T114: glyph 0 drawn twice at (0, 0). -/
theorem witness_DrwTwiceRestoresScreen : ∃ (x y x' y' : RegNo) (n : Nibble) (s t u v : State),
    exec (.drw x y n) s = .next t ∧ exec (.drw x' y' n) u = .next v ∧ u.fb = t.fb ∧ u.i = s.i ∧
      (u.readReg x').toNat % 64 = (s.readReg x).toNat % 64 ∧ (u.readReg y').toNat % 32 = (s.readReg y).toNat % 32 ∧
      (∀ dy, dy < n.toNat → u.memRead (s.i.toNat + dy) = s.memRead (s.i.toNat + dy)) ∧ n = 5 :=
  ⟨0, 1, 0, 1, 5, State.reset.writeIndex 0x50, _,
    { State.reset.writeIndex 0x50 with
      fb := (xorPixels State.reset.fb ((State.reset.writeIndex 0x50).drawTargets 0 1 5)).1 },
    _, rfl, rfl, rfl, rfl, rfl, rfl, fun _ _ => rfl, rfl⟩

/-- Both clauses of the key-wait, the second at keys 0 and 15. -/
theorem witness_KeyWaitTakesLeastKey : (∃ s : State, ∀ k, s.readKey k = false) ∧
    (∃ s : State, s.readKey 0 = true ∧ ∀ j : RegNo, j.toNat < (0 : RegNo).toNat → s.readKey j = false) ∧
    ∃ s : State, s.readKey 15 = true ∧ ∀ j : RegNo, j.toNat < (15 : RegNo).toNat → s.readKey j = false :=
  ⟨⟨State.reset, by decide⟩, ⟨State.reset.writeKey 0 true, by decide⟩, ⟨State.reset.writeKey 15 true, by decide⟩⟩

/-- Both clauses: three pending steps with a tick behind them, and no request. -/
theorem witness_KeyWaitRepeats :
    (∃ (rnds : List Byte) (rs : List Request) (x : RegNo) (s : State), s.port.requests = rnds.map .step ++ rs ∧
      (∀ k, s.readKey k = false) ∧ decodeWord s.fetchWord = .ldKey x ∧ rnds ≠ [] ∧ rs ≠ []) ∧
    ∃ (x : RegNo) (s : State), s.port.requests = [] ∧ (∀ k, s.readKey k = false) ∧ decodeWord s.fetchWord = .ldKey x :=
  ⟨⟨[1, 2, 0xFF], [.tick], 3, (State.reset.withFetchWord 16 0xF30A).withRequests [.step 1, .step 2, .step 0xFF, .tick],
      rfl, by decide, by decide, by decide, by decide⟩,
    ⟨3, State.reset.withFetchWord 16 0xF30A, rfl, by decide, by decide⟩⟩

/-- Both values of the beep: ST 1, and ST 0. -/
theorem witness_TickCountsDown : (∃ (s : State) (rs : List Request), s.port.requests = .tick :: rs ∧ s.st = 1) ∧
    ∃ (s : State) (rs : List Request), s.port.requests = .tick :: rs ∧ s.st ≠ 1 :=
  ⟨⟨(State.reset.writeSound 1).withRequests [.tick], [], rfl, rfl⟩, ⟨State.reset.withRequests [.tick], [], rfl, by decide⟩⟩

theorem witness_TimersReachZeroAfterTheirValue : ∃ (n : Nat) (s : State) (rs : List Request),
    s.port.requests = List.replicate n .tick ++ rs ∧ n = 5 ∧ s.st = 3 :=
  ⟨5, (State.reset.writeSound 3).withRequests [.tick, .tick, .tick, .tick, .tick, .step 0], [.step 0], rfl, rfl, rfl⟩

theorem witness_UnknownWordsAreReported : (∃ w : Word, unassignedWord w = true) ∧
    (∃ nnn : Addr, nnn ≠ 0x0E0#12 ∧ nnn ≠ 0x0EE#12) ∧
    (∃ s : State, StepsExecutor s ∧ (decodeWord s.fetchWord).isUnknown = true) ∧
    ∃ s : State, StepsExecutor s ∧ s.fetchWord = 0xFFFF ∧ (decodeWord s.fetchWord).isUnknown = true :=
  ⟨⟨0x8008, by decide⟩, ⟨0x0E1, by decide⟩, ⟨State.reset, .inl rfl, by decide⟩,
    ⟨State.reset.withFetchWord 16 0xFFFF, .inl rfl, by decide, by decide⟩⟩

/-- Both clauses of `load`, at the longest program (3584 bytes) and one byte more. -/
theorem witness_LoadCopiesProgram :
    (∃ (s : State) (bytes : List Byte) (rs : List Request), s.Inv ∧ s.port.requests = .load bytes :: rs ∧
      bytes.length = 3584) ∧
    ∃ (s : State) (bytes : List Byte) (rs : List Request), s.Inv ∧ s.port.requests = .load bytes :: rs ∧
      3584 < bytes.length :=
  ⟨⟨State.reset.withRequests [.load (List.replicate 3584 0xAB)], _, [], rfl, rfl, List.length_replicate⟩,
    ⟨State.reset.withRequests [.load (List.replicate 3585 0xAB)], _, [], rfl, rfl, by rw [List.length_replicate]; decide⟩⟩

theorem witness_ResetPutsEveryField : ∃ (s : State) (rs : List Request), s.port.requests = .reset :: rs ∧ s.pc = 0x300 :=
  ⟨(State.reset.writePc 0x300).withRequests [.reset], [], rfl, rfl⟩

theorem witness_KeyWriteAndDrawClear :
    (∃ (s : State) (rs : List Request) (k : RegNo) (b : Bool), s.port.requests = .keyWrite k b :: rs) ∧
      (∃ k j : RegNo, j ≠ k) ∧ ∃ (s : State) (rs : List Request), s.port.requests = .drawClear :: rs :=
  ⟨⟨State.reset.withRequests [.keyWrite 15 true], [], 15, true, rfl⟩, ⟨0, 15, by decide⟩,
    ⟨State.reset.withRequests [.drawClear], [], rfl⟩⟩

theorem witness_HostReadsChangeNothing : (∃ (s : State) (rs : List Request), s.port.requests = .readFramebuffer :: rs) ∧
    ∃ (s : State) (rs : List Request), s.port.requests = .readDrawFlag :: rs :=
  ⟨⟨State.reset.withRequests [.readFramebuffer], [], rfl⟩, ⟨State.reset.withRequests [.readDrawFlag], [], rfl⟩⟩

/-- Each clause of OwnershipOfState is met by a transition: a key press, a cleared draw flag, a load, a jump, a tick. -/
theorem witness_OwnershipOfState :
    (∃ s t : State, step s = .next t ∧ t.keypad ≠ s.keypad) ∧
      (∃ s t : State, step s = .next t ∧ s.drawFlag = true ∧ t.drawFlag = false) ∧
      (∃ s t : State, step s = .next t ∧ t.mem ≠ s.mem) ∧ (∃ s t : State, step s = .next t ∧ t.pc ≠ s.pc) ∧
      ∃ s t : State, step s = .next t ∧ t.dt ≠ s.dt :=
  ⟨⟨State.reset.withRequests [.keyWrite 0 true], _, rfl, by decide⟩,
    ⟨(State.reset.writeDrawFlag true).withRequests [.drawClear], _, rfl, by decide⟩,
    ⟨State.reset.withRequests [.load [0x12, 0x00]], _, rfl, by decide⟩, ⟨State.reset, _, rfl, by decide⟩,
    ⟨(State.reset.writeDelay 2).withRequests [.tick], _, rfl, by decide⟩⟩

theorem witness_OnlyKeyInstructionsReadKeypad : ∃ i : Instr, ∀ x, i ≠ .skp x ∧ i ≠ .sknp x ∧ i ≠ .ldKey x :=
  ⟨.drw 0 1 5, by simp⟩

theorem witness_OnlyRndReadsDraw : ∃ i : Instr, ∀ x kk, i ≠ .rnd x kk := ⟨.storeRegs 15, by simp⟩

theorem witness_IndexHighBitsAreUnobservable : ∃ (s : State) (j : Word), j ≠ s.i ∧ j.toNat % 4096 = s.i.toNat % 4096 :=
  ⟨State.reset.writeIndex 0x0300, 0x1300, by decide⟩

/-- The premises of the second clause of OddPcIsReachedAndExecutes, at 0x201 and at the last address, whose second byte is
at 0x000. -/
theorem witness_OddPcIsReachedAndExecutes : (∃ s : State, StepsExecutor s ∧ s.pc.toNat % 2 = 1 ∧
      s.memRead s.pc.toNat = 0x6#4 ++ 0#4 ∧ s.memRead ((s.pc.toNat + 1) % 4096) = 0x42 ∧ s.readReg 0 ≠ 0x42) ∧
    ∃ s : State, StepsExecutor s ∧ s.pc = 0xFFF ∧ s.pc.toNat % 2 = 1 ∧ s.memRead s.pc.toNat = 0x6#4 ++ 0xF#4 ∧
      s.memRead ((s.pc.toNat + 1) % 4096) = 0x42 ∧ s.readReg 0xF ≠ 0x42 :=
  ⟨⟨(State.reset.writePc 0x201).withFetchWord 16 0x6042, .inl rfl, by decide, by decide, by decide, by decide⟩,
    ⟨(State.reset.writePc 0xFFF).withFetchWord 16 0x6F42, .inl rfl, rfl, by decide, by decide, by decide, by decide⟩⟩

end Sys2Proof.Tests
end

section
/-! PROOFS. Every transition keeps memory canonical (20_memory.md R33): what each transition leaves in memory, said once,
then the invariant's step lemmas along exec, serve and step. -/

namespace Sys2Proof.Machine

/-- The bytes an instruction stores from `I` on: only LD B,Vx and LD [I],Vx store any (43_index_memory.md R113, R114). -/
def storedBytes : Instr → State → List Byte
  | .ldB x, s => bcdDigits (s.readReg x)
  | .storeRegs x, s => (regsUpTo x).map s.readReg
  | _, _ => []

/-- All that an instruction does to memory is to store its bytes as items. -/
theorem mem_of_exec {i : Instr} {s t : State} (h : exec i s = .next t) :
    t.mem = (s.storeItems (storedBytes i s)).mem := by
  cases i with
  | ret =>
    by_cases hsp : s.sp.val = 0
    · rw [exec_ret_empty s hsp] at h; cases h; rfl
    · rw [exec_ret_pop s hsp] at h; cases h; rfl
  | call nnn =>
    by_cases hsp : s.sp.val = 16
    · rw [exec_call_full s nnn hsp] at h; cases h; rfl
    · rw [exec_call_push s nnn hsp] at h; cases h; exact State.push_mem s _
  | ldKey x =>
    cases hk : s.firstKey with
    | none => rw [exec_ldKey_blocked s x hk] at h; cases h; rfl
    | some k => rw [exec_ldKey_pressed s x k hk] at h; cases h; rfl
  | loadRegs x => rw [exec_loadRegs] at h; cases h; exact State.loadItems_mem s _
  | _ => cases h; rfl

theorem exec_keeps_inv {i : Instr} {s t : State} (hs : s.Inv) (h : exec i s = .next t) : t.Inv := by
  rw [State.Inv, mem_of_exec h]
  exact State.wf_storeItems s hs _

theorem executorStep_keeps_inv {rnd : Byte} {s t : State} (hs : s.Inv) (h : executorStep rnd s = .next t) : t.Inv :=
  have hlatch : (s.latch rnd s.fetchWord).Inv := hs
  exec_keeps_inv hlatch h

/-- A load keeps memory as it was when the program is too long, and else copies the program (70_reset_and_hazards.md R193). -/
theorem loadProgram_keeps_inv {s : State} (hs : s.Inv) (bytes : List Byte) : (loadProgram bytes s).Inv := by
  unfold loadProgram
  split
  · exact hs
  · exact State.wf_memWriteList hs progBase bytes

/-- The requests that reach memory are a step, a load and a reset; the others leave it alone (60_exceptions.md R175). -/
theorem serve_keeps_inv {r : Request} {s t : State} (hs : s.Inv) (h : serve r s = .next t) : t.Inv := by
  cases r with
  | step rnd => exact executorStep_keeps_inv hs h
  | load bytes => cases h; exact loadProgram_keeps_inv hs bytes
  | reset => cases h; exact wf_nil
  | tick | keyWrite _ _ | drawClear | readFramebuffer | readDrawFlag => cases h; exact hs

/-- Settles O8: the executor's step and every request of the host keep the canonical form. -/
theorem memoryStaysCanonical : Obligations.MemoryStaysCanonical := by
  intro s t hs h
  cases hr : s.port.requests with
  | nil =>
    rw [step_of_no_request s hr] at h
    have hdraw : s.countDraw.Inv := hs
    exact executorStep_keeps_inv hdraw h
  | cons r rs =>
    rw [step_of_request s r rs hr] at h
    have hrest : (s.withRequests rs).Inv := hs
    exact serve_keeps_inv hrest h

end Sys2Proof.Machine
end

section
/-! PROOFS. The state after reset (10_state.md R23), and memory as data: the canonical form is extensional
(20_memory.md R30). -/

namespace Sys2Proof.Machine

/-- A listed cell does not hold its reset content, so it is told apart from any memory that lists only later cells. -/
theorem cellAt_head_ne {lo b : Nat} {w : Byte} {m m' : Memory} (hm : wfAbove lo ((b, w) :: m) = true)
    (hm' : wfAbove (b + 1) m' = true) : cellAt ((b, w) :: m) b ≠ cellAt m' b := by
  obtain ⟨-, -, hw, -⟩ := wfAbove_cons.1 hm
  rwa [cellAt, if_pos rfl, cellAt_below hm' (by omega)]

/-- Canonical memories that agree on every cell are equal: their least listed cells agree in address and content, and so
on along the lists. -/
theorem eq_of_wfAbove {lo : Nat} {m m' : Memory} (hm : wfAbove lo m = true) (hm' : wfAbove lo m' = true)
    (h : ∀ a, a < memSize → cellAt m a = cellAt m' a) : m = m' := by
  induction m generalizing lo m' with
  | nil =>
    cases m' with
    | nil => rfl
    | cons c' m' =>
      have hb := (wfAbove_cons.1 hm').2.1
      exact absurd (h _ hb).symm (cellAt_head_ne (m' := []) hm' rfl)
  | cons c m ih =>
    obtain ⟨b, w⟩ := c
    obtain ⟨-, hb, -, htail⟩ := wfAbove_cons.1 hm
    cases m' with
    | nil => exact absurd (h b hb) (cellAt_head_ne (m' := []) hm rfl)
    | cons c' m' =>
      obtain ⟨b', w'⟩ := c'
      obtain ⟨-, hb', hw', htail'⟩ := wfAbove_cons.1 hm'
      rcases Nat.lt_trichotomy b b' with hlt | rfl | hlt
      · exact absurd (h b hb) (cellAt_head_ne hm (wfAbove_cons.2 ⟨hlt, hb', hw', htail'⟩))
      · have hw : w = w' := by simpa [cellAt] using h b hb
        have hrest : ∀ a, a < memSize → cellAt m a = cellAt m' a := fun a ha => by
          by_cases hab : a = b
          · rw [hab, cellAt_below htail (by omega), cellAt_below htail' (by omega)]
          · simpa [cellAt, hab] using h a ha
        rw [hw, ih htail htail' hrest]
      · have hm₁ := wfAbove_cons.2 ⟨hlt, (wfAbove_cons.1 hm).2⟩
        exact absurd (h b' hb').symm (cellAt_head_ne hm' hm₁)

/-- Settles O10: extensionality of the canonical form, from address 0 on. -/
theorem canonicalMemoriesAreEqual : Obligations.CanonicalMemoriesAreEqual :=
  fun _ _ hm hm' h => eq_of_wfAbove hm hm' h

/-- Settles O9: reset memory lists no cell. -/
theorem resetMemoryIsCanonical : Obligations.ResetMemoryIsCanonical := wf_nil

/-- A cell of the font area holds its font byte after reset. -/
theorem initialByte_font {k : Nat} (h : k < 80) : initialByte (fontBase + k) = config.font[k] := by
  rw [initialByte, dif_pos ⟨Nat.le_add_right .., by omega⟩]
  simp only [Nat.add_sub_cancel_left]

/-- A cell outside the font area holds 0 after reset. -/
theorem initialByte_outside_font {a : Nat} (h : a < fontBase ∨ fontBase + 80 ≤ a) : initialByte a = 0 :=
  dif_neg (by omega)

/-- After reset every cell holds its reset content. -/
theorem memRead_reset {a : Nat} (h : a < memSize) : State.reset.memRead a = initialByte a :=
  congrArg initialByte (Nat.mod_eq_of_lt h)

/-- Settles O11: memory is the font and zeros, every vector is a replicated reset value, the rest stands in the
definition. -/
theorem resetState : Obligations.ResetState := by
  have hfont : ∀ k, (h : k < 80) → State.reset.memRead (fontBase + k) = config.font[k] := fun k h => by
    rw [memRead_reset (by simp only [fontBase, memSize]; omega), initialByte_font h]
  have hzero : ∀ a, a < memSize → (a < fontBase ∨ fontBase + 80 ≤ a) → State.reset.memRead a = 0 := fun a ha h => by
    rw [memRead_reset ha, initialByte_outside_font h]
  exact ⟨hfont, hzero, fun _ => Vector.getElem_replicate _, rfl, rfl, rfl, fun _ _ => Vector.getElem_replicate _, rfl, rfl,
    fun _ _ => Vector.getElem_replicate _, fun _ => Vector.getElem_replicate _, rfl⟩

end Sys2Proof.Machine
end

section
/-! PROOFS. Which transition a step is: the executor's, whatever brought it about, or another request of the host. -/

namespace Sys2Proof.Machine

/-- A step of the executor executes the word at `pc`; what comes before touches the model's own port only. -/
theorem step_of_stepsExecutor {s : State} (h : StepsExecutor s) :
    ∃ p, step s = exec (decodeWord s.fetchWord) (s.writePort p) := by
  obtain hr | ⟨rnd, rs, hr⟩ := h
  · exact ⟨_, step_of_no_request s hr⟩
  · exact ⟨_, step_of_request s _ rs hr⟩

/-- A transition is a step of the executor, or serves a request of the host for something else. -/
theorem stepsExecutor_or_request (s : State) :
    StepsExecutor s ∨ ∃ r rs, (∀ rnd, r ≠ .step rnd) ∧ s.port.requests = r :: rs := by
  cases hr : s.port.requests with
  | nil => exact .inl (.inl hr)
  | cons r rs =>
    cases r with
    | step rnd => exact .inl (.inr ⟨rnd, rs, hr⟩)
    | _ => exact .inr ⟨_, rs, by simp, rfl⟩

end Sys2Proof.Machine
end

section
/-! PROOFS. Execution at an odd `pc` (10_state.md R22, 20_memory.md R35). -/

namespace Sys2Proof.Machine

/-- The fetch of a word whose bytes are known; the second byte's address is mod 4096 (40_step_cycle.md R70). -/
theorem fetchWord_eq {s : State} {hi lo : Byte} (hhi : s.memRead s.pc.toNat = hi)
    (hlo : s.memRead ((s.pc.toNat + 1) % memSize) = lo) : s.fetchWord = wordOfBytes hi lo := by
  rw [State.fetchWord, hhi, ← hlo, State.memRead, State.memRead, Nat.mod_mod]

/-- The word 6xkk is LD Vx,byte (30_encoding.md R54). -/
theorem decodeWord_ldByte (x : RegNo) (kk : Byte) : decodeWord (packXKK 0x6#4 x kk) = .ldByte x kk := by
  simp [decodeWord]

/-- Settles O52: JP 0x201 takes the even 0x200 to an odd `pc`; a word 6xkk at an odd `pc` is executed as anywhere; and with
6042 stored from 0x201 on such a state exists. -/
theorem oddPcIsReachedAndExecutes : Obligations.OddPcIsReachedAndExecutes := by
  refine ⟨⟨State.reset.withFetchWord 16 0x1201, _, by decide, rfl, by decide⟩, ?_,
    ⟨(State.reset.writePc 0x201).withFetchWord 16 0x6042, .inl rfl, by decide, by decide, by decide, by decide, by decide⟩⟩
  intro s x kk hs _ hhi hlo
  obtain ⟨p, hp⟩ := step_of_stepsExecutor hs
  have hword : s.fetchWord = packXKK 0x6#4 x kk := fetchWord_eq hhi hlo
  rw [hp, hword, decodeWord_ldByte, exec_ldByte]
  exact ⟨_, rfl, by simp, rfl, rfl⟩

end Sys2Proof.Machine
end

section
/-! PROOFS. The frame of an instruction, said once for each part of the state that the rules below speak of
(40_step_cycle.md R75). -/

namespace Sys2Proof.Machine

/-- The two ways RET ends (41_control_flow.md R80). -/
theorem exec_ret_cases {s t : State} (h : exec .ret s = .next t) :
    (s.sp.val = 0 ∧ t = (s.writePc (s.pc + 2)).report (.step .stackUnderflow)) ∨
      (s.sp.val ≠ 0 ∧ t = (s.dropTop.writePc s.top).report (.step .normal)) := by
  by_cases hsp : s.sp.val = 0
  · rw [exec_ret_empty s hsp] at h; cases h; exact .inl ⟨hsp, rfl⟩
  · rw [exec_ret_pop s hsp] at h; cases h; exact .inr ⟨hsp, rfl⟩

/-- The two ways CALL ends (41_control_flow.md R82). -/
theorem exec_call_cases {nnn : Addr} {s t : State} (h : exec (.call nnn) s = .next t) :
    (s.sp.val = 16 ∧ t = (s.writePc (s.pc + 2)).report (.step .stackOverflow)) ∨
      (s.sp.val ≠ 16 ∧ t = ((s.push (s.pc + 2)).writePc nnn).report (.step .normal)) := by
  by_cases hsp : s.sp.val = 16
  · rw [exec_call_full s nnn hsp] at h; cases h; exact .inl ⟨hsp, rfl⟩
  · rw [exec_call_push s nnn hsp] at h; cases h; exact .inr ⟨hsp, rfl⟩

/-- The two ways LD Vx,K ends (45_keypad.md R132). -/
theorem exec_ldKey_cases {x : RegNo} {s t : State} (h : exec (.ldKey x) s = .next t) :
    (s.firstKey = none ∧ t = s.report (.step .blockedOnKey)) ∨
      ∃ k : RegNo, s.firstKey = some k ∧ t = ((s.writeReg x (k.setWidth 8)).writePc (s.pc + 2)).report (.step .normal) := by
  cases hk : s.firstKey with
  | none => rw [exec_ldKey_blocked s x hk] at h; cases h; exact .inl ⟨rfl, rfl⟩
  | some k => rw [exec_ldKey_pressed s x k hk] at h; cases h; exact .inr ⟨k, rfl, rfl⟩

/-- A register that is no destination keeps its value. -/
theorem readReg_of_exec {i : Instr} {s t : State} (h : exec i s = .next t) {r : RegNo} (hr : r ∉ destRegs i) :
    t.readReg r = s.readReg r := by
  cases i with
  | ldByte x _ | addByte x _ | ldReg x _ | or x _ | and x _ | xor x _ | rnd x _ | ldFromDt x =>
    cases h
    exact (State.readReg_writeReg s x r _).trans (if_neg (mt List.mem_singleton.2 hr))
  | addReg x _ | sub x _ | shr x _ | subn x _ | shl x _ =>
    simp only [destRegs, List.mem_cons, List.not_mem_nil, or_false, not_or] at hr
    cases h
    exact (State.readReg_writeWithFlag s x _ _ r).trans ((if_neg hr.2).trans (if_neg hr.1))
  | drw x y n =>
    cases h
    exact (State.readReg_writeReg _ VF r _).trans (if_neg (mt List.mem_singleton.2 hr))
  | loadRegs x =>
    rw [exec_loadRegs] at h
    cases h
    exact (State.readReg_loadItems s (regsUpTo x) r).trans (if_neg hr)
  | ldB x => rw [exec_ldB] at h; cases h; exact State.readReg_storeItems s _ r
  | storeRegs x => rw [exec_storeRegs] at h; cases h; exact State.readReg_storeItems s _ r
  | ret => obtain ⟨-, rfl⟩ | ⟨-, rfl⟩ := exec_ret_cases h <;> rfl
  | call nnn =>
    obtain ⟨-, rfl⟩ | ⟨-, rfl⟩ := exec_call_cases h
    · rfl
    · exact State.readReg_push s _ r
  | ldKey x =>
    obtain ⟨-, rfl⟩ | ⟨k, -, rfl⟩ := exec_ldKey_cases h
    · rfl
    · exact (State.readReg_writeReg s x r _).trans (if_neg (mt List.mem_singleton.2 hr))
  | _ => cases h; rfl

/-- No instruction changes the keypad, and none clears the draw flag. -/
theorem keypad_drawFlag_of_exec {i : Instr} {s t : State} (h : exec i s = .next t) :
    t.keypad = s.keypad ∧ (s.drawFlag = true → t.drawFlag = true) := by
  cases i with
  | cls | drw _ _ _ => cases h; exact ⟨rfl, fun _ => rfl⟩
  | loadRegs x => rw [exec_loadRegs] at h; cases h; simp
  | ldB x => rw [exec_ldB] at h; cases h; simp
  | storeRegs x => rw [exec_storeRegs] at h; cases h; simp
  | ret => obtain ⟨-, rfl⟩ | ⟨-, rfl⟩ := exec_ret_cases h <;> exact ⟨rfl, id⟩
  | call nnn => obtain ⟨-, rfl⟩ | ⟨-, rfl⟩ := exec_call_cases h <;> simp
  | ldKey x => obtain ⟨-, rfl⟩ | ⟨k, -, rfl⟩ := exec_ldKey_cases h <;> exact ⟨rfl, id⟩
  | _ => cases h; exact ⟨rfl, id⟩

/-- An instruction that changes memory is LD B,Vx or LD [I],Vx. -/
theorem store_of_mem_ne {i : Instr} {s t : State} (h : exec i s = .next t) (hne : t.mem ≠ s.mem) :
    ∃ x, i = .ldB x ∨ i = .storeRegs x := by
  cases i with
  | ldB x => exact ⟨x, .inl rfl⟩
  | storeRegs x => exact ⟨x, .inr rfl⟩
  | _ => exact absurd (mem_of_exec h) hne

end Sys2Proof.Machine
end

section
/-! PROOFS. VF after each instruction (10_state.md R13). -/

namespace Sys2Proof.Machine

/-- A flag's value is 1 where the condition holds, else 0. -/
theorem flagByte_decide (p : Prop) [Decidable p] : flagByte (decide p) = if p then 1 else 0 := by
  by_cases h : p <;> simp [flagByte, h]

/-- The flag-writing instructions of family 8 leave the flag in VF, `x = F` included (42_alu.md R91). -/
theorem readReg_VF_writeWithFlag (s : State) (x : RegNo) (b : Byte) (flag : Bool) :
    (s.writeWithFlag x b flag).readReg VF = flagByte flag := by
  rw [State.readReg_writeWithFlag, if_pos rfl]

/-- The bit SHR shifts out, as a number. -/
theorem toNat_flagByte_shiftedOutRight (a : Byte) : (flagByte (shiftedOutRight a)).toNat = a.toNat % 2 := by
  rw [toNat_flagByte, shiftedOutRight, BitVec.getLsbD, Nat.toNat_testBit, Nat.pow_zero, Nat.div_one]

/-- The bit SHL shifts out, as a number. -/
theorem toNat_flagByte_shiftedOutLeft (a : Byte) : (flagByte (shiftedOutLeft a)).toNat = a.toNat / 128 := by
  have := a.isLt
  rw [toNat_flagByte, shiftedOutLeft, BitVec.getLsbD, Nat.toNat_testBit]
  omega

/-- The collision flag of a sprite: 1 exactly when some pixel goes from 1 to 0 (44_display.md R121). -/
theorem collision_iff_erased (fb : Pixels) (ts : List PixelIdx) (h : ts.Nodup) :
    (xorPixels fb ts).2 = true ↔
      ∃ k, ∃ hk : k < 2048, fb[k] = true ∧ (xorPixels fb ts).1[k] = false := by
  obtain ⟨hpix, hflag⟩ := xorPixels_spec fb ts h
  rw [hflag]
  constructor
  · rintro ⟨k, hmem, hset⟩
    exact ⟨k.val, k.isLt, hset, by rw [hpix k, hset, decide_eq_true hmem]; rfl⟩
  · rintro ⟨k, hk, hset, herased⟩
    have hk' := hpix ⟨k, hk⟩
    rw [herased, hset] at hk'
    exact ⟨⟨k, hk⟩, by simpa using hk', hset⟩

/-- LD Vx,[I] loads VF only when `x` is F: VF is the last register of all. -/
theorem VF_notMem_regsUpTo {x : RegNo} (h : x ≠ VF) : VF ∉ regsUpTo x := fun hmem => by
  have hx := x.isLt
  have hle : 15 ≤ x.toNat := (mem_regsUpTo x VF).1 hmem
  exact h (BitVec.eq_of_toNat_eq (by simp only [VF, BitVec.toNat_ofNat]; omega))

/-- Settles O15: the flag writers one by one; every other instruction by the frame of its destination registers. -/
theorem onlyFlagWritersAndDestinationsChangeVF : Obligations.OnlyFlagWritersAndDestinationsChangeVF := by
  intro i s t h
  cases i with
  | addReg x y | sub x y | subn x y =>
    cases h
    exact (readReg_VF_writeWithFlag s x _ _).trans (flagByte_decide _)
  | shr x y =>
    cases h
    exact (congrArg BitVec.toNat (readReg_VF_writeWithFlag s x _ _)).trans (toNat_flagByte_shiftedOutRight _)
  | shl x y =>
    cases h
    exact (congrArg BitVec.toNat (readReg_VF_writeWithFlag s x _ _)).trans (toNat_flagByte_shiftedOutLeft _)
  | drw x y n =>
    have hcoll := collision_iff_erased s.fb _ (nodup_drawTargets s x y n)
    rw [exec_drw] at h
    cases h
    cases hflag : (xorPixels s.fb (s.drawTargets x y n)).2 with
    | true => exact .inl ⟨State.readReg_writeReg_self _ VF _, hcoll.1 hflag⟩
    | false =>
      refine .inr ⟨State.readReg_writeReg_self _ VF _, fun k hk hset => ?_⟩
      by_contra hne
      exact absurd (hcoll.2 ⟨k, hk, hset, Bool.eq_false_iff.2 hne⟩) (by simp [hflag])
  | ldByte x _ | addByte x _ | ldReg x _ | or x _ | and x _ | xor x _ | rnd x _ | ldFromDt x | ldKey x =>
    exact fun hx => readReg_of_exec h (by simpa [destRegs] using hx.symm)
  | loadRegs x => exact fun hx => readReg_of_exec h (VF_notMem_regsUpTo hx)
  | _ => exact readReg_of_exec h List.not_mem_nil

end Sys2Proof.Machine
end

section
/-! PROOFS. Who may change what (10_state.md R25): for each part of the state, the executor's frame, then the host's
requests one by one. -/

namespace Sys2Proof.Machine

/-- The frame of a step of the executor, for what the host may change too. -/
theorem executor_frame {s t : State} (hs : StepsExecutor s) (h : step s = .next t) :
    t.keypad = s.keypad ∧ (s.drawFlag = true → t.drawFlag = true) ∧
      (t.mem ≠ s.mem → ∃ x, decodeWord s.fetchWord = .ldB x ∨ decodeWord s.fetchWord = .storeRegs x) := by
  obtain ⟨p, hp⟩ := step_of_stepsExecutor hs
  rw [hp] at h
  obtain ⟨hkey, hdraw⟩ := keypad_drawFlag_of_exec h
  exact ⟨hkey, hdraw, fun hne => store_of_mem_ne h hne⟩

/-- A load changes nothing but memory and the report (70_reset_and_hazards.md R193). -/
theorem loadProgram_eq (bytes : List Byte) (s : State) :
    loadProgram bytes s = { s with mem := (loadProgram bytes s).mem, port := (loadProgram bytes s).port } := by
  unfold loadProgram
  split
  · rfl
  · rw [State.memWriteList_eq]; rfl

/-- What a request other than `step` and `reset` changes: a load memory, a tick the timers, a key write the keypad, a
draw clear the draw flag; and all of them the port. -/
theorem serve_frame {r : Request} {s t : State} (h : serve r s = .next t) (hstep : ∀ rnd, r ≠ .step rnd)
    (hreset : r ≠ .reset) :
    ((∀ k b, r ≠ .keyWrite k b) → t.keypad = s.keypad) ∧ (r ≠ .drawClear → t.drawFlag = s.drawFlag) ∧
      ((∀ bytes, r ≠ .load bytes) → t.mem = s.mem) ∧ (r ≠ .tick → t.dt = s.dt ∧ t.st = s.st) ∧
      t = { s with mem := t.mem, dt := t.dt, st := t.st, keypad := t.keypad, drawFlag := t.drawFlag, port := t.port } := by
  cases r with
  | step rnd => exact absurd rfl (hstep rnd)
  | reset => exact absurd rfl hreset
  | keyWrite k b => cases h; exact ⟨fun hne => absurd rfl (hne k b), fun _ => rfl, fun _ => rfl, fun _ => ⟨rfl, rfl⟩, rfl⟩
  | drawClear => cases h; exact ⟨fun _ => rfl, absurd rfl, fun _ => rfl, fun _ => ⟨rfl, rfl⟩, rfl⟩
  | tick => cases h; exact ⟨fun _ => rfl, fun _ => rfl, fun _ => rfl, absurd rfl, rfl⟩
  | load bytes =>
    cases h
    rw [loadProgram_eq]
    exact ⟨fun _ => rfl, fun _ => rfl, fun hne => absurd rfl (hne bytes), fun _ => ⟨rfl, rfl⟩, rfl⟩
  | readFramebuffer | readDrawFlag => cases h; exact ⟨fun _ => rfl, fun _ => rfl, fun _ => rfl, fun _ => ⟨rfl, rfl⟩, rfl⟩

/-- Settles O47: a step of the executor by its frame; of the host's requests, a reset may change anything, and each other
one only what its frame allows. -/
theorem ownershipOfState : Obligations.OwnershipOfState := by
  intro s t h
  obtain hs | ⟨r, rs, hstep, hr⟩ := stepsExecutor_or_request s
  · obtain ⟨hkey, hdraw, hmem⟩ := executor_frame hs h
    exact ⟨absurd hkey, fun hd hc => absurd ((hdraw hd).symm.trans hc) nofun, fun hne => .inr ⟨hs, hmem hne⟩,
      fun _ => .inl hs, fun _ => .inl hs⟩
  by_cases hreset : r = .reset
  · subst hreset
    exact ⟨fun _ => ⟨rs, .inr hr⟩, fun _ _ => ⟨rs, .inr hr⟩, fun _ => .inl ⟨rs, .inr hr⟩, fun _ => .inr ⟨rs, hr⟩,
      fun _ => .inr ⟨rs, .inr hr⟩⟩
  rw [step_of_request s r rs hr] at h
  obtain ⟨hkey, hdraw, hmem, htimers, hrest⟩ := serve_frame h hstep hreset
  refine ⟨fun hne => ⟨rs, .inl ?_⟩, fun hd hc => ⟨rs, .inl ?_⟩, fun hne => .inl ⟨rs, .inl ?_⟩, fun hne => ?_,
    fun hne => .inr ⟨rs, .inl ?_⟩⟩
  · by_contra hno
    exact hne (hkey fun k b e => hno ⟨k, b, e ▸ hr⟩)
  · by_contra hno
    exact absurd ((hdraw fun e => hno (e ▸ hr)).symm.trans hc) (by simp [hd])
  · by_contra hno
    exact hne (hmem fun bytes e => hno ⟨bytes, e ▸ hr⟩)
  · rw [hrest] at hne
    simp at hne
  · by_contra hno
    obtain ⟨hdt, hst⟩ := htimers fun e => hno (e ▸ hr)
    exact hne.elim (absurd hdt) (absurd hst)

end Sys2Proof.Machine
end

section
/-! PROOFS. What an instruction does not read: bits 15:12 of `I`, ST, the draw flag and, but for three instructions, the
keypad (10_state.md R10, R14, R18, R20, R21). One lemma changes all four at once. -/

namespace Sys2Proof.Machine

/-- The state with other values in `I`, ST, the draw flag and the keypad. -/
def State.perturb (s : State) (j : Word) (b : Byte) (d : Bool) (kp : Vector Bool 16) : State :=
  { s with i := j, st := b, drawFlag := d, keypad := kp }

/-- Writing bytes to memory depends on memory alone. -/
theorem mem_memWriteList_congr {s t : State} (hm : t.mem = s.mem) (a : Nat) (bs : List Byte) :
    (t.memWriteList a bs).mem = (s.memWriteList a bs).mem := by
  induction bs generalizing s t a with
  | nil => exact hm
  | cons b bs ih =>
    have hb : (t.memWrite a b).mem = (s.memWrite a b).mem := by rw [State.memWrite_mem, State.memWrite_mem, hm]
    exact ih hb (a + 1)

/-- Two states with the same registers, register by register. -/
theorem v_eq_of_readReg_eq {s t : State} (h : ∀ r, t.readReg r = s.readReg r) : t.v = s.v := by
  refine Vector.ext fun k hk => ?_
  have hk' := h (BitVec.ofNat 4 k)
  simpa only [State.readReg, BitVec.toNat_ofNat, Nat.mod_eq_of_lt hk] using hk'

section SameItems

variable {s t : State} (hm : t.mem = s.mem) (hi : t.i.toNat % memSize = s.i.toNat % memSize)

include hi in
/-- Item addresses depend on the low 12 bits of `I` alone (20_memory.md R37). -/
theorem itemAddr_congr (k : Nat) : t.itemAddr k = s.itemAddr k := by
  rw [State.itemAddr, Nat.add_mod, hi, ← Nat.add_mod, State.itemAddr]

include hm hi

/-- What storing items leaves in memory depends on memory and the item addresses alone. -/
theorem mem_storeItems_congr (bs : List Byte) : (t.storeItems bs).mem = (s.storeItems bs).mem := by
  rw [State.storeItems, itemAddr_congr hi, mem_memWriteList_congr hm, State.storeItems]

/-- What loading items leaves in the registers depends on memory, the item addresses and the registers alone. -/
theorem v_loadItems_congr (hv : t.v = s.v) (rs : List RegNo) : (t.loadItems rs).v = (s.loadItems rs).v := by
  have hread : ∀ r, t.readReg r = s.readReg r := fun r => by rw [State.readReg, State.readReg, hv]
  refine v_eq_of_readReg_eq fun r => ?_
  rw [State.readReg_loadItems, State.readReg_loadItems, ← State.memRead_itemAddr, ← State.memRead_itemAddr,
    itemAddr_congr hi, State.memRead_congr hm, hread]

/-- The pixels a sprite selects depend on memory, the item addresses and the registers alone. -/
theorem drawTargets_congr (hv : t.v = s.v) (x y : RegNo) (n : Nibble) : t.drawTargets x y n = s.drawTargets x y n := by
  simp only [State.drawTargets, State.spriteTargets, itemAddr_congr hi, State.memRead_congr hm, State.readReg, hv]

end SameItems

/-- How an instruction that stores items ends, field by field. -/
theorem finish_storeItems (s : State) (bs : List Byte) :
    finish (s.storeItems bs) =
      .next { s with mem := (s.storeItems bs).mem, pc := s.pc + 2, port := { s.port with report := .step .normal } } := by
  rw [State.storeItems_eq]; rfl

/-- How an instruction that loads items ends, field by field. -/
theorem finish_loadItems (s : State) (rs : List RegNo) :
    finish (s.loadItems rs) =
      .next { s with v := (s.loadItems rs).v, pc := s.pc + 2, port := { s.port with report := .step .normal } } := by
  rw [State.loadItems_eq]; rfl

/-- How CALL ends on a stack that is not full, field by field. -/
theorem exec_call_fields (s : State) (nnn : Addr) (h : s.sp.val < 16) :
    exec (.call nnn) s =
      .next { s with
        stack := s.stack.set s.sp.val (s.pc + 2), sp := ⟨s.sp.val + 1, by omega⟩, pc := nnn,
        port := { s.port with report := .step .normal } } := by
  rw [exec_call_push s nnn (by omega), State.push_of_lt s _ h]; rfl

/-- The low 12 bits of a sum in 16 bits depend on the low 12 bits of its terms alone. -/
theorem toNat_add_mod_congr {j i : Word} (hj : j.toNat % memSize = i.toNat % memSize) (w : Word) :
    (j + w).toNat % memSize = (i + w).toNat % memSize := by
  simp only [BitVec.toNat_add, memSize] at hj ⊢
  omega

/-- An instruction does the same whatever stands in bits 15:12 of `I`, in ST, in the draw flag and (unless it is one of the
three that read it) in the keypad; of these fields, one that starts the same ends the same. -/
theorem exec_perturb (i : Instr) (s : State) (j : Word) (b : Byte) (d : Bool) (kp : Vector Bool 16)
    (hj : j.toNat % memSize = s.i.toNat % memSize)
    (hkp : kp = s.keypad ∨ ∀ x, i ≠ .skp x ∧ i ≠ .sknp x ∧ i ≠ .ldKey x) :
    ∃ t j' b' d', exec i s = .next t ∧ exec i (s.perturb j b d kp) = .next (t.perturb j' b' d' kp) ∧
      j'.toNat % memSize = t.i.toNat % memSize ∧ (j = s.i → j' = t.i) ∧ (b = s.st → b' = t.st) ∧
      (d = s.drawFlag → d' = t.drawFlag) := by
  cases i with
  | cls => exact ⟨_, j, b, true, rfl, rfl, hj, id, id, fun _ => rfl⟩
  | drw x y n =>
    refine ⟨_, j, b, true, rfl, ?_, hj, id, id, fun _ => rfl⟩
    rw [exec_drw, drawTargets_congr (s := s) (t := s.perturb j b d kp) rfl hj rfl]
    rfl
  | ldSt x => exact ⟨_, j, s.readReg x, d, rfl, rfl, hj, id, fun _ => rfl, id⟩
  | ldI nnn => exact ⟨_, _, b, d, rfl, rfl, rfl, fun _ => rfl, id, id⟩
  | ldF x => exact ⟨_, _, b, d, rfl, rfl, rfl, fun _ => rfl, id, id⟩
  | addI x =>
    exact ⟨_, _, b, d, rfl, rfl, toNat_add_mod_congr hj _, fun h => congrArg (· + _) h, id, id⟩
  | ldB x | storeRegs x =>
    refine ⟨_, j, b, d, finish_storeItems s _, (finish_storeItems (s.perturb j b d kp) _).trans ?_, hj, id, id, id⟩
    rw [mem_storeItems_congr (s := s) (t := s.perturb j b d kp) rfl hj]
    rfl
  | loadRegs x =>
    refine ⟨_, j, b, d, finish_loadItems s _, (finish_loadItems (s.perturb j b d kp) _).trans ?_, hj, id, id, id⟩
    rw [v_loadItems_congr (s := s) (t := s.perturb j b d kp) rfl hj rfl]
    rfl
  | ret =>
    by_cases hsp : s.sp.val = 0
    · exact ⟨_, j, b, d, exec_ret_empty s hsp, exec_ret_empty _ hsp, hj, id, id, id⟩
    · exact ⟨_, j, b, d, exec_ret_pop s hsp, exec_ret_pop _ hsp, hj, id, id, id⟩
  | call nnn =>
    by_cases hsp : s.sp.val = 16
    · exact ⟨_, j, b, d, exec_call_full s nnn hsp, exec_call_full _ nnn hsp, hj, id, id, id⟩
    · have hlt : s.sp.val < 16 := by omega
      exact ⟨_, j, b, d, exec_call_fields s nnn hlt, exec_call_fields (s.perturb j b d kp) nnn hlt, hj, id, id, id⟩
  | skp x | sknp x =>
    obtain rfl | hne := hkp
    · exact ⟨_, j, b, d, rfl, rfl, hj, id, id, id⟩
    · simp at hne
  | ldKey x =>
    obtain rfl | hne := hkp
    · cases hk : s.firstKey with
      | none => exact ⟨_, j, b, d, exec_ldKey_blocked s x hk, exec_ldKey_blocked _ x hk, hj, id, id, id⟩
      | some k => exact ⟨_, j, b, d, exec_ldKey_pressed s x k hk, exec_ldKey_pressed _ x k hk, hj, id, id, id⟩
    · simp at hne
  | _ => exact ⟨_, j, b, d, rfl, rfl, hj, id, id, id⟩

/-- Settles O48: only the keypad is changed. -/
theorem onlyKeyInstructionsReadKeypad : Obligations.OnlyKeyInstructionsReadKeypad := by
  intro i s kp hi
  obtain ⟨t, j, b, d, ht, hu, -, hj, hb, hd⟩ := exec_perturb i s s.i s.st s.drawFlag kp rfl (.inr hi)
  rw [hj rfl, hb rfl, hd rfl] at hu
  exact ⟨t, ht, hu⟩

/-- Settles O50: only ST and the draw flag are changed. -/
theorem nothingReadsSoundTimerOrDrawFlag : Obligations.NothingReadsSoundTimerOrDrawFlag := by
  intro i s b d
  obtain ⟨t, j, b', d', ht, hu, -, hj, -, -⟩ := exec_perturb i s s.i b d s.keypad rfl (.inl rfl)
  obtain ⟨hkey, -⟩ := keypad_drawFlag_of_exec ht
  exact ⟨t, _, ht, hu, by rw [State.perturb, hj rfl, ← hkey]⟩

/-- Settles O51: only bits 15:12 of `I` are changed. -/
theorem indexHighBitsAreUnobservable : Obligations.IndexHighBitsAreUnobservable := by
  intro i s j hij
  obtain ⟨t, j', b, d, ht, hu, hj, -, hb, hd⟩ := exec_perturb i s j s.st s.drawFlag s.keypad hij (.inl rfl)
  obtain ⟨hkey, -⟩ := keypad_drawFlag_of_exec ht
  exact ⟨t, _, ht, hu, by rw [State.perturb, hb rfl, hd rfl, ← hkey], hj⟩

end Sys2Proof.Machine
end

section
/-! PROOFS. A stored byte is what a later fetch of its address reads (20_memory.md R34, R40). -/

namespace Sys2Proof.Machine

/-- With `pc` at the address of item `k`, the fetch reads items `k` and `k + 1` (20_memory.md R34, R37). -/
theorem fetchWord_at_itemAddr (s t : State) (k : Nat) :
    (t.writePc (BitVec.ofNat 12 (s.itemAddr k))).fetchWord =
      wordOfBytes (t.memRead (s.i.toNat + k)) (t.memRead (s.i.toNat + (k + 1))) := by
  have hpc : (t.writePc (BitVec.ofNat 12 (s.itemAddr k))).pc.toNat = s.itemAddr k :=
    (BitVec.toNat_ofNat ..).trans (Nat.mod_mod ..)
  refine fetchWord_eq ?_ ?_
  · rw [hpc, State.memRead_writePc]
    simp [State.memRead, State.itemAddr]
  · rw [hpc, State.memRead_writePc]
    simp [State.memRead, State.itemAddr, Nat.add_assoc]

/-- After LD [I],Vx, item `k` is `Vk` (43_index_memory.md R114). -/
theorem memRead_of_exec_storeRegs {x : RegNo} {s t : State} (hs : s.Inv) (h : exec (.storeRegs x) s = .next t)
    {k : Nat} (hk : k ≤ x.toNat) : t.memRead (s.i.toNat + k) = s.readReg (BitVec.ofNat 4 k) := by
  have hlen : ((regsUpTo x).map s.readReg).length = x.toNat + 1 := by simp
  have hfits : x.toNat + 1 ≤ memSize := by simp only [memSize]; omega
  rw [State.memRead_congr (mem_of_exec h), storedBytes,
    State.memRead_storeItems_inside s hs _ (hlen.trans_le hfits) k (by omega), List.getElem_map, getElem_regsUpTo]

/-- Settles O32: the fetch reads the bytes of items `k` and `k + 1`, and both were stored. -/
theorem storedBytesAreFetchedNext : Obligations.StoredBytesAreFetchedNext := by
  intro x s t k hs h hk
  rw [fetchWord_at_itemAddr, memRead_of_exec_storeRegs hs h (by omega), memRead_of_exec_storeRegs hs h hk, wordOfBytes]

end Sys2Proof.Machine
end

section
/-! PROOFS. Encoding (30_encoding.md R51 to R60). The decoder inverts the encoder on well-formed instructions, and every word
is the word of a well-formed instruction; so each later fact about a decoded word is a fact about an encoded instruction. -/

namespace Sys2Proof

section PackedFields

variable {w : Word} {op n : Nibble} {kk : Byte} (hop : fieldOp w = op)

include hop

theorem packNNN_of_fields : packNNN op (fieldNNN w) = w := by rw [← hop, word_eq_packNNN]

theorem packXKK_of_fields (hkk : fieldKK w = kk) : packXKK op (fieldX w) kk = w := by rw [← hop, ← hkk, word_eq_packXKK]

theorem packXYN_of_fields (hn : fieldN w = n) : packXYN op (fieldX w) (fieldY w) n = w := by
  rw [← hop, ← hn, word_eq_packXYN]

end PackedFields

/-- The words that only `Unknown(w)` names, by their fields (R56 to R58). -/
theorem unassignedWord_iff (w : Word) : unassignedWord w = true ↔
    (fieldOp w = 0x8#4 ∧ fieldN w ∈ unassignedKeys8) ∨ (fieldOp w = 0xE#4 ∧ fieldKK w ∉ keysE) ∨
      (fieldOp w = 0xF#4 ∧ fieldKK w ∉ keysF) := by
  simp [unassignedWord, fieldOp, fieldN, fieldKK, or_assoc]

section Families

variable {w : Word}

theorem decodeWord_family8 (h : fieldOp w = 0x8#4) : decodeWord w = decodeFamily8 w := by simp [decodeWord, h]

theorem decodeWord_familyE (h : fieldOp w = 0xE#4) : decodeWord w = decodeFamilyE w := by simp [decodeWord, h]

theorem decodeWord_familyF (h : fieldOp w = 0xF#4) : decodeWord w = decodeFamilyF w := by simp [decodeWord, h]

/-! A word with an unassigned key fails every test of its family. -/

theorem decodeFamily8_unassigned (h : fieldN w ∈ unassignedKeys8) : decodeFamily8 w = .unknown w := by
  simp only [unassignedKeys8, List.mem_cons, List.not_mem_nil, or_false] at h
  obtain h | h | h | h | h | h | h := h <;> simp [decodeFamily8, h]

theorem decodeFamilyE_unassigned (h : fieldKK w ∉ keysE) : decodeFamilyE w = .unknown w := by
  simp_all [decodeFamilyE, keysE]

theorem decodeFamilyF_unassigned (h : fieldKK w ∉ keysF) : decodeFamilyF w = .unknown w := by
  simp_all [decodeFamilyF, keysF]

end Families

theorem decodeWord_unassigned {w : Word} (h : unassignedWord w = true) : decodeWord w = .unknown w := by
  obtain ⟨hop, hn⟩ | ⟨hop, hkk⟩ | ⟨hop, hkk⟩ := (unassignedWord_iff w).1 h
  · rw [decodeWord_family8 hop, decodeFamily8_unassigned hn]
  · rw [decodeWord_familyE hop, decodeFamilyE_unassigned hkk]
  · rw [decodeWord_familyF hop, decodeFamilyF_unassigned hkk]

/-- A word of family 0 that is neither 00E0 nor 00EE (R55). -/
theorem decodeWord_sysAddr {nnn : Addr} (hcls : nnn ≠ 0x0E0#12) (hret : nnn ≠ 0x0EE#12) :
    decodeWord (packNNN 0x0#4 nnn) = .sysAddr nnn := by
  have hne (k : Addr) (hk : nnn ≠ k) : packNNN 0x0#4 nnn ≠ packNNN 0x0#4 k := fun h =>
    hk (by simpa using congrArg fieldNNN h)
  have hcls' : packNNN 0x0#4 nnn ≠ 0x00E0#16 := hne _ hcls
  have hret' : packNNN 0x0#4 nnn ≠ 0x00EE#16 := hne _ hret
  simp [decodeWord, decodeFamily0, hcls', hret']

/-- The decoder inverts the encoder: the two instructions without fields by evaluation, the two with a condition by their own
lemmas, and the others since the decoder reads back the very fields that were packed. -/
theorem decodeWord_encode {i : Instr} (h : i.wf = true) : decodeWord (encode i) = i := by
  cases i with
  | cls | ret => decide
  | sysAddr nnn =>
    obtain ⟨hcls, hret⟩ : nnn ≠ 0x0E0#12 ∧ nnn ≠ 0x0EE#12 := by simpa [Instr.wf] using h
    exact decodeWord_sysAddr hcls hret
  | unknown w => exact decodeWord_unassigned h
  | ldReg | or | and | xor | addReg | sub | shr | subn | shl => simp [encode, decodeWord_family8, decodeFamily8]
  | skp | sknp => simp [encode, decodeWord_familyE, decodeFamilyE]
  | ldFromDt | ldKey | ldDt | ldSt | addI | ldF | ldB | storeRegs | loadRegs =>
    simp [encode, decodeWord_familyF, decodeFamilyF]
  | _ => simp [encode, decodeWord]

/-- Two bytes and more: the decoder reads the word they make and leaves the rest. -/
theorem decode_bytes (w : Word) (rest : List Byte) :
    decode ([highByte w, lowByte w] ++ rest) = .ok (decodeWord w, rest) := by
  have h : decode ([highByte w, lowByte w] ++ rest) = .ok (decodeWord (wordOfBytes (highByte w) (lowByte w)), rest) := rfl
  rw [h, wordOfBytes_bytes]

/-- Settles O1: by the word, and so by its two bytes. -/
theorem decodeInvertsEncode : Obligations.DecodeInvertsEncode := by
  intro i rest h
  have hword := decodeWord_encode h
  exact ⟨hword, by rw [encodeBytes, decode_bytes, hword]⟩

/-- A well-formed instruction whose word is `w`. -/
def Instr.Encodes (i : Instr) (w : Word) : Prop := encode i = w ∧ i.wf = true

section Encodes

variable {w : Word}

/-- A test of the decoder, with what holds in each branch. -/
theorem encodes_ite {c : Prop} [Decidable c] {i j : Instr} (hi : c → i.Encodes w) (hj : ¬c → j.Encodes w) :
    (if c then i else j).Encodes w :=
  iteInduction (motive := (Instr.Encodes · w)) hi hj

theorem encodes_decodeFamily0 (hop : fieldOp w = 0x0#4) : (decodeFamily0 w).Encodes w := by
  unfold decodeFamily0
  split_ifs with hcls hret
  · exact ⟨hcls.symm, rfl⟩
  · exact ⟨hret.symm, rfl⟩
  · have hw := packNNN_of_fields hop
    have hne : fieldNNN w ≠ 0x0E0#12 ∧ fieldNNN w ≠ 0x0EE#12 :=
      ⟨fun h => hcls (by rw [← hw, h]; rfl), fun h => hret (by rw [← hw, h]; rfl)⟩
    exact ⟨hw, by simpa [Instr.wf] using hne⟩

theorem encodes_unknown (h : unassignedWord w = true) : (Instr.unknown w).Encodes w := ⟨rfl, h⟩

/-- The keys that family 8 tests for are all but the unassigned ones (R56). -/
theorem mem_unassignedKeys8 : ∀ n : Nibble, n ≠ 0x0#4 → n ≠ 0x1#4 → n ≠ 0x2#4 → n ≠ 0x3#4 → n ≠ 0x4#4 → n ≠ 0x5#4 →
    n ≠ 0x6#4 → n ≠ 0x7#4 → n ≠ 0xE#4 → n ∈ unassignedKeys8 := by decide

theorem encodes_decodeFamily8 (hop : fieldOp w = 0x8#4) : (decodeFamily8 w).Encodes w := by
  unfold decodeFamily8
  split_ifs with h0 h1 h2 h3 h4 h5 h6 h7 hE
  case neg =>
    exact encodes_unknown ((unassignedWord_iff w).2 (.inl ⟨hop, mem_unassignedKeys8 _ h0 h1 h2 h3 h4 h5 h6 h7 hE⟩))
  all_goals exact ⟨packXYN_of_fields hop ‹fieldN w = _›, rfl⟩

theorem encodes_decodeFamilyE (hop : fieldOp w = 0xE#4) : (decodeFamilyE w).Encodes w := by
  unfold decodeFamilyE
  split_ifs
  case neg => exact encodes_unknown ((unassignedWord_iff w).2 (.inr (.inl ⟨hop, by simp [keysE, *]⟩)))
  all_goals exact ⟨packXKK_of_fields hop ‹fieldKK w = _›, rfl⟩

theorem encodes_decodeFamilyF (hop : fieldOp w = 0xF#4) : (decodeFamilyF w).Encodes w := by
  unfold decodeFamilyF
  split_ifs
  case neg => exact encodes_unknown ((unassignedWord_iff w).2 (.inr (.inr ⟨hop, by simp [keysF, *]⟩)))
  all_goals exact ⟨packXKK_of_fields hop ‹fieldKK w = _›, rfl⟩

end Encodes

/-- The last value of the top nibble. -/
theorem nibble_eq_F : ∀ n : Nibble, n ≠ 0x0#4 → n ≠ 0x1#4 → n ≠ 0x2#4 → n ≠ 0x3#4 → n ≠ 0x4#4 → n ≠ 0x5#4 → n ≠ 0x6#4 →
    n ≠ 0x7#4 → n ≠ 0x8#4 → n ≠ 0x9#4 → n ≠ 0xA#4 → n ≠ 0xB#4 → n ≠ 0xC#4 → n ≠ 0xD#4 → n ≠ 0xE#4 → n = 0xF#4 := by bv_omega

/-- The decoder is total and drops no bit (R53), family by family. -/
theorem encodes_decodeWord (w : Word) : (decodeWord w).Encodes w := by
  unfold decodeWord
  refine encodes_ite encodes_decodeFamily0 fun h0 => ?_
  refine encodes_ite (fun h => ⟨packNNN_of_fields h, rfl⟩) fun h1 => ?_
  refine encodes_ite (fun h => ⟨packNNN_of_fields h, rfl⟩) fun h2 => ?_
  refine encodes_ite (fun h => ⟨packXKK_of_fields h rfl, rfl⟩) fun h3 => ?_
  refine encodes_ite (fun h => ⟨packXKK_of_fields h rfl, rfl⟩) fun h4 => ?_
  refine encodes_ite (fun h => ⟨packXYN_of_fields h rfl, rfl⟩) fun h5 => ?_
  refine encodes_ite (fun h => ⟨packXKK_of_fields h rfl, rfl⟩) fun h6 => ?_
  refine encodes_ite (fun h => ⟨packXKK_of_fields h rfl, rfl⟩) fun h7 => ?_
  refine encodes_ite encodes_decodeFamily8 fun h8 => ?_
  refine encodes_ite (fun h => ⟨packXYN_of_fields h rfl, rfl⟩) fun h9 => ?_
  refine encodes_ite (fun h => ⟨packNNN_of_fields h, rfl⟩) fun hA => ?_
  refine encodes_ite (fun h => ⟨packNNN_of_fields h, rfl⟩) fun hB => ?_
  refine encodes_ite (fun h => ⟨packXKK_of_fields h rfl, rfl⟩) fun hC => ?_
  refine encodes_ite (fun h => ⟨packXYN_of_fields h rfl, rfl⟩) fun hD => ?_
  refine encodes_ite encodes_decodeFamilyE fun hE => ?_
  exact encodes_decodeFamilyF (nibble_eq_F _ h0 h1 h2 h3 h4 h5 h6 h7 h8 h9 hA hB hC hD hE)

/-- Settles O2: a decoded instruction encodes the word it was read from. -/
theorem encodeInvertsDecode : Obligations.EncodeInvertsDecode := encodes_decodeWord

end Sys2Proof
end

section
/-! PROOFS. The Unknown class (30_encoding.md R60), by the fields of the word, as the table's rows of numbers, and as the
words that no row of the opcode map (R54) matches. -/

namespace Sys2Proof

/-- The Unknown words by their fields: an Unknown instruction's word is read off `encode`, and each such word is that of a
well-formed Unknown instruction. -/
theorem isUnknown_decodeWord_iff (w : Word) : (decodeWord w).isUnknown = true ↔
    (fieldOp w = 0x0#4 ∧ w ≠ 0x00E0#16 ∧ w ≠ 0x00EE#16) ∨ fieldOp w = 0xB#4 ∨ unassignedWord w = true := by
  constructor
  · intro h
    obtain ⟨henc, hwf⟩ := encodes_decodeWord w
    cases hi : decodeWord w with
    | sysAddr nnn =>
      rw [hi] at henc
      refine .inl ⟨by simp [← henc, encode], ?_, ?_⟩ <;> rintro rfl <;> cases hi
    | jpV0 nnn =>
      rw [hi] at henc
      exact .inr (.inl (by simp [← henc, encode]))
    | unknown v =>
      rw [hi] at henc hwf
      exact .inr (.inr (henc ▸ hwf))
    | _ => simp [hi, Instr.isUnknown] at h
  · rintro (⟨hop, hcls, hret⟩ | hop | h)
    · simp [decodeWord, hop, decodeFamily0, hcls, hret, Instr.isUnknown]
    · simp [decodeWord, hop, Instr.isUnknown]
    · rw [decodeWord_unassigned h]; rfl

section FieldNumbers

variable (w : Word)

theorem fieldOp_eq_iff (op : Nibble) : fieldOp w = op ↔ w.toNat / 0x1000 = op.toNat := by
  have hfield : (fieldOp w).toNat = w.toNat / 0x1000 := by
    have := w.isLt
    simp only [fieldOp, BitVec.extractLsb'_toNat, Nat.shiftRight_eq_div_pow]
    omega
  rw [← BitVec.toNat_inj, hfield]

theorem fieldN_mem_iff (ns : List Nibble) : fieldN w ∈ ns ↔ w.toNat % 0x10 ∈ ns.map BitVec.toNat := by
  have hfield : (fieldN w).toNat = w.toNat % 0x10 := by simp [fieldN]
  rw [← hfield, List.mem_map_of_injective fun _ _ => BitVec.eq_of_toNat_eq]

theorem fieldKK_mem_iff (kks : List Byte) : fieldKK w ∈ kks ↔ w.toNat % 0x100 ∈ kks.map BitVec.toNat := by
  have hfield : (fieldKK w).toNat = w.toNat % 0x100 := by simp [fieldKK]
  rw [← hfield, List.mem_map_of_injective fun _ _ => BitVec.eq_of_toNat_eq]

end FieldNumbers

/-- Settles O4: the fields of the Unknown words, read as numbers. -/
theorem unknownWordsAreThoseListed : Obligations.UnknownWordsAreThoseListed := by
  intro w
  have hlow : w.toNat < 0x1000 ↔ w.toNat / 0x1000 = 0 := by omega
  rw [isUnknown_decodeWord_iff, unassignedWord_iff, hlow]
  simp only [fieldOp_eq_iff, fieldN_mem_iff, fieldKK_mem_iff]
  exact or_congr_right or_left_comm

/-- Settles O5: by evaluation of the decoder. -/
theorem knownWordsDecode : Obligations.KnownWordsDecode := by
  unfold Obligations.KnownWordsDecode
  decide

section Rows

variable {w : Word} {row row' : OpcodeRow}

/-- What the rows of the map fix, family by family: the top nibble, and in families 0, 8, E and F the word or the secondary
key, which is none of the unassigned ones (R55 to R58). -/
theorem fixed_of_row_mem : ∀ row ∈ opcodeRows,
    fieldOp row.mask = 0xF#4 ∧ fieldOp row.key ≠ 0xB#4 ∧
    (fieldOp row.key = 0x0#4 → row.mask = 0xFFFF#16 ∧ (row.key = 0x00E0#16 ∨ row.key = 0x00EE#16)) ∧
    (fieldOp row.key = 0x8#4 → fieldN row.mask = 0xF#4 ∧ fieldN row.key ∉ unassignedKeys8) ∧
    (fieldOp row.key = 0xE#4 → fieldKK row.mask = 0xFF#8 ∧ fieldKK row.key ∈ keysE) ∧
    (fieldOp row.key = 0xF#4 → fieldKK row.mask = 0xFF#8 ∧ fieldKK row.key ∈ keysF) := by decide

/-- No two rows of the map agree on the bits that both fix (R54). -/
theorem eq_or_conflict_of_rows_mem : ∀ row ∈ opcodeRows, ∀ row' ∈ opcodeRows,
    row.key &&& row'.mask ≠ row'.key &&& row.mask ∨ row = row' := by decide

/-- A word matches one row of the map at most. -/
theorem row_unique (hr : row ∈ opcodeRows) (hr' : row' ∈ opcodeRows) (h : w &&& row.mask = row.key)
    (h' : w &&& row'.mask = row'.key) : row = row' :=
  (eq_or_conflict_of_rows_mem row hr row' hr').resolve_left fun hne =>
    hne (by rw [← h, ← h', BitVec.and_assoc, BitVec.and_assoc, BitVec.and_comm row.mask])

/-- A field that the mask covers is fixed by the match. -/
theorem extractLsb'_of_match {a n : Nat} (h : w &&& row.mask = row.key)
    (hmask : row.mask.extractLsb' a n = BitVec.allOnes n) : w.extractLsb' a n = row.key.extractLsb' a n := by
  rw [← h, BitVec.extractLsb'_and, hmask, BitVec.and_allOnes]

/-- A word that a row of the map matches is not in the Unknown class. -/
theorem not_isUnknown_of_match (hr : row ∈ opcodeRows) (h : w &&& row.mask = row.key) :
    (decodeWord w).isUnknown ≠ true := by
  obtain ⟨hmask, hB, h0, h8, hE, hF⟩ := fixed_of_row_mem row hr
  have hop : fieldOp w = fieldOp row.key := extractLsb'_of_match h hmask
  rw [Ne, isUnknown_decodeWord_iff, unassignedWord_iff, hop]
  rintro (⟨hfam, hcls, hret⟩ | hfam | ⟨hfam, hn⟩ | ⟨hfam, hkk⟩ | ⟨hfam, hkk⟩)
  · obtain ⟨hall, hkey⟩ := h0 hfam
    have hw : w = row.key := by rw [← h, hall]; exact BitVec.and_allOnes.symm
    exact hkey.elim (fun e => hcls (hw.trans e)) (fun e => hret (hw.trans e))
  · exact hB hfam
  · obtain ⟨hmask, hkey⟩ := h8 hfam
    have hn' : fieldN w = fieldN row.key := extractLsb'_of_match h hmask
    exact hkey (hn' ▸ hn)
  · obtain ⟨hmask, hkey⟩ := hE hfam
    have hkk' : fieldKK w = fieldKK row.key := extractLsb'_of_match h hmask
    exact hkk (hkk' ▸ hkey)
  · obtain ⟨hmask, hkey⟩ := hF hfam
    have hkk' : fieldKK w = fieldKK row.key := extractLsb'_of_match h hmask
    exact hkk (hkk' ▸ hkey)

end Rows

/-- Every instruction outside the Unknown class has a row of the map that bears its name. -/
theorem exists_row_of_not_isUnknown {i : Instr} (h : i.isUnknown ≠ true) :
    ∃ row ∈ opcodeRows, row.mnemonic = i.mnemonic := by
  cases i with
  | sysAddr | jpV0 | unknown => exact absurd rfl h
  | _ => simp [opcodeRows, opcodeRowsLow, opcodeRowsHigh, Instr.mnemonic]

/-- A word matches every row of the map that bears its instruction's name. -/
theorem match_of_mnemonic {w : Word} {row : OpcodeRow} (hr : row ∈ opcodeRows)
    (h : row.mnemonic = (decodeWord w).mnemonic) : w &&& row.mask = row.key := by
  obtain ⟨henc, -⟩ := encodes_decodeWord w
  simpa only [henc] using Laws.Opcode.all (decodeWord w) row hr h

/-- Settles O3: a matched row is the one that bears the instruction's name, since the rows are disjoint. -/
theorem decodeFollowsOpcodeMap : Obligations.DecodeFollowsOpcodeMap := by
  intro w
  have hown (h : (decodeWord w).isUnknown ≠ true) :
      ∃ row ∈ opcodeRows, row.mnemonic = (decodeWord w).mnemonic ∧ w &&& row.mask = row.key := by
    obtain ⟨row, hr, hname⟩ := exists_row_of_not_isUnknown h
    exact ⟨row, hr, hname, match_of_mnemonic hr hname⟩
  refine ⟨fun row hr => ⟨fun h => ?_, fun h => match_of_mnemonic hr h.symm⟩, fun h row hr hm => ?_, fun h => ?_⟩
  · obtain ⟨row', hr', hname, hm⟩ := hown (not_isUnknown_of_match hr h)
    rw [row_unique hr hr' h hm, hname]
  · exact not_isUnknown_of_match hr hm h
  · by_contra hu
    obtain ⟨row, hr, -, hm⟩ := hown hu
    exact h row hr hm

end Sys2Proof
end

section
/-! PROOFS. The step and exec (40_step_cycle.md R70, R73): which instruction a step executes, what `pc` and the outcome are
afterwards, and that nothing stops the machine (R77). -/

namespace Sys2Proof.Machine

/-- Settles O6: the executor's step decodes the word at `pc`, and what it sets before stands in the port. -/
theorem stepRunsDecodedInstruction : Obligations.StepRunsDecodedInstruction := by
  intro s w hw
  have hfetch : s.fetchWord = w := (fetchWord_eq rfl rfl).trans hw.symm
  subst hfetch
  exact ⟨step_of_no_request s, fun rnd rs => step_of_request s (.step rnd) rs⟩

/-- The key SKP and SKNP test is the value's low four bits (45_keypad.md R130, R131). -/
theorem keyOf_eq_setWidth (b : Byte) : keyOf b = b.setWidth 4 :=
  BitVec.eq_of_toNat_eq (by simp [keyOf])

/-- Settles O12: the skips choose `pc` by their test, RET and CALL by the stack's count, LD Vx,K by the first key. -/
theorem pcAndOutcomeOfEachInstruction : Obligations.PcAndOutcomeOfEachInstruction := by
  intro i s
  cases i with
  | seByte x kk => exact ⟨_, exec_seByte s x kk, by simp⟩
  | sneByte x kk => exact ⟨_, exec_sneByte s x kk, by simp⟩
  | seReg x y ign => exact ⟨_, exec_seReg s x y ign, by simp⟩
  | sneReg x y ign => exact ⟨_, exec_sneReg s x y ign, by simp⟩
  | skp x => exact ⟨_, exec_skp s x, by simp [keyOf_eq_setWidth]⟩
  | sknp x => cases hk : s.readKey ((s.readReg x).setWidth 4) <;> exact ⟨_, exec_sknp s x, by simp [keyOf_eq_setWidth, hk]⟩
  | ret =>
    by_cases hsp : s.sp.val = 0
    · exact ⟨_, exec_ret_empty s hsp, (if_pos hsp).symm⟩
    · exact ⟨_, exec_ret_pop s hsp, (if_neg hsp).symm⟩
  | call nnn =>
    by_cases hsp : s.sp.val = 16
    · exact ⟨_, exec_call_full s nnn hsp, (if_pos hsp).symm⟩
    · exact ⟨_, exec_call_push s nnn hsp, (if_neg hsp).symm⟩
  | ldKey x =>
    cases hk : s.firstKey with
    | none => exact ⟨_, exec_ldKey_blocked s x hk, (if_pos ((firstKey_eq_none s).1 hk)).symm⟩
    | some k =>
      have hpressed : ¬ ∀ j, s.readKey j = false := by rw [← firstKey_eq_none, hk]; exact nofun
      exact ⟨_, exec_ldKey_pressed s x k hk, (if_neg hpressed).symm⟩
  | ldB x => exact ⟨_, exec_ldB s x, rfl⟩
  | storeRegs x => exact ⟨_, exec_storeRegs s x, rfl⟩
  | loadRegs x => exact ⟨_, exec_loadRegs s x, rfl⟩
  | _ => exact ⟨_, rfl, rfl⟩

/-- Every instruction completes (60_exceptions.md R161). -/
theorem exec_answers_next (i : Instr) (s : State) : ∃ t, exec i s = .next t :=
  (pcAndOutcomeOfEachInstruction i s).imp fun _ h => h.1

/-- Settles O7: a step of the executor is an instruction, and every other request of the host answers at once. -/
theorem stepAlwaysAnswersNext : Obligations.StepAlwaysAnswersNext := by
  refine ⟨fun s => ?_, exec_answers_next⟩
  obtain hs | ⟨r, rs, hstep, hr⟩ := stepsExecutor_or_request s
  · obtain ⟨p, hp⟩ := step_of_stepsExecutor hs
    rw [hp]
    exact exec_answers_next _ _
  · rw [step_of_request s r rs hr]
    cases r with
    | step rnd => exact absurd rfl (hstep rnd)
    | _ => exact ⟨_, rfl⟩

end Sys2Proof.Machine
end

section
/-! PROOFS. The frame of a step (40_step_cycle.md R75): the parts of the state an instruction writes, and what an error
outcome leaves. -/

namespace Sys2Proof.Machine

/-- The parts an instruction may write beside `pc`, the V registers and memory (40_step_cycle.md R75). -/
def writtenParts : Instr → List Part
  | .ldI _ | .addI _ | .ldF _ => [.index]
  | .ret | .call _ => [.stack]
  | .ldDt _ => [.delayTimer]
  | .ldSt _ => [.soundTimer]
  | .cls | .drw _ _ _ => [.screen, .drawFlag]
  | _ => []

/-- A part that is not written keeps its value, and of the port only the report changes. -/
theorem parts_of_exec {i : Instr} {s t : State} (h : exec i s = .next t) :
    (.index ∉ writtenParts i → t.i = s.i) ∧ (.stack ∉ writtenParts i → t.stack = s.stack ∧ t.sp = s.sp) ∧
      (.delayTimer ∉ writtenParts i → t.dt = s.dt) ∧ (.soundTimer ∉ writtenParts i → t.st = s.st) ∧
      (.screen ∉ writtenParts i → t.fb = s.fb) ∧ (.drawFlag ∉ writtenParts i → t.drawFlag = s.drawFlag) ∧
      t.port = { s.port with report := t.port.report } := by
  cases i with
  | ret => obtain ⟨-, rfl⟩ | ⟨-, rfl⟩ := exec_ret_cases h <;> simp [writtenParts]
  | call nnn => obtain ⟨-, rfl⟩ | ⟨-, rfl⟩ := exec_call_cases h <;> simp [writtenParts]
  | ldKey x => obtain ⟨-, rfl⟩ | ⟨k, -, rfl⟩ := exec_ldKey_cases h <;> simp
  | ldI _ | addI _ | ldF _ | ldDt _ | ldSt _ | cls | drw _ _ _ => cases h; simp [writtenParts]
  | ldB x => rw [exec_ldB] at h; cases h; simp
  | storeRegs x => rw [exec_storeRegs] at h; cases h; simp
  | loadRegs x => rw [exec_loadRegs] at h; cases h; simp
  | _ => cases h; exact ⟨fun _ => rfl, fun _ => ⟨rfl, rfl⟩, fun _ => rfl, fun _ => rfl, fun _ => rfl, fun _ => rfl, rfl⟩

/-- An error outcome changes `pc` and the report only, and `pc` advances by 2 (60_exceptions.md R161). -/
theorem eq_of_exec_error {i : Instr} {s t : State} {o : StepOutcome} (h : exec i s = .next t)
    (ho : t.port.report = .step o) (herr : o.isError = true) : t = (s.writePc (s.pc + 2)).report (.step o) := by
  cases i with
  | ret =>
    obtain ⟨-, rfl⟩ | ⟨-, rfl⟩ := exec_ret_cases h
    · cases ho; rfl
    · cases ho; cases herr
  | call nnn =>
    obtain ⟨-, rfl⟩ | ⟨-, rfl⟩ := exec_call_cases h
    · cases ho; rfl
    · cases ho; cases herr
  | ldKey x => obtain ⟨-, rfl⟩ | ⟨k, -, rfl⟩ := exec_ldKey_cases h <;> cases ho <;> cases herr
  | sysAddr _ | jpV0 _ | unknown _ => cases h; cases ho; rfl
  | _ => cases h; cases ho; cases herr

/-- Which instructions write a part (40_step_cycle.md R75). -/
theorem writer_of_mem_writtenParts {p : Part} {i : Instr} (h : p ∈ writtenParts i) :
    match p with
    | .index => (∃ a, i = .ldI a) ∨ (∃ x, i = .addI x) ∨ ∃ x, i = .ldF x
    | .stack => i = .ret ∨ ∃ a, i = .call a
    | .delayTimer => ∃ x, i = .ldDt x
    | .soundTimer => ∃ x, i = .ldSt x
    | .screen | .drawFlag => i = .cls ∨ ∃ x y n, i = .drw x y n := by
  cases i with
  | ldI a => cases List.mem_singleton.1 h; exact .inl ⟨a, rfl⟩
  | addI x => cases List.mem_singleton.1 h; exact .inr (.inl ⟨x, rfl⟩)
  | ldF x => cases List.mem_singleton.1 h; exact .inr (.inr ⟨x, rfl⟩)
  | ret => cases List.mem_singleton.1 h; exact .inl rfl
  | call a => cases List.mem_singleton.1 h; exact .inr ⟨a, rfl⟩
  | ldDt x | ldSt x => cases List.mem_singleton.1 h; exact ⟨x, rfl⟩
  | cls => obtain rfl | rfl := List.mem_pair.1 h <;> exact .inl rfl
  | drw x y n => obtain rfl | rfl := List.mem_pair.1 h <;> exact .inr ⟨x, y, n, rfl⟩
  | _ => exact absurd h List.not_mem_nil

/-- Settles O13: a step of the executor is an instruction in the same state but for the port, and an instruction changes
only the parts it writes. -/
theorem stepFrame : Obligations.StepFrame := by
  rintro s t i hs rfl h
  obtain ⟨hkey, -, hmem⟩ := executor_frame hs h
  obtain ⟨p, hp⟩ := step_of_stepsExecutor hs
  rw [hp] at h
  obtain ⟨hi, hstack, hdt, hst, hfb, hdraw, -⟩ := parts_of_exec h
  refine ⟨hkey, fun r hr => readReg_of_exec h hr, fun hld hadd hfont => hi fun hw => ?_, fun hcls hdrw => ?_,
    fun hbcd hstore => ?_, fun hret hcall => hstack fun hw => ?_,
    fun hld => hdt fun hw => (writer_of_mem_writtenParts hw).elim hld,
    fun hld => hst fun hw => (writer_of_mem_writtenParts hw).elim hld, fun o ho herr => ?_⟩
  · obtain ⟨a, ha⟩ | ⟨x, hx⟩ | ⟨x, hx⟩ := writer_of_mem_writtenParts hw
    · exact hld a ha
    · exact hadd x hx
    · exact hfont x hx
  · have hnone : ¬ (decodeWord s.fetchWord = .cls ∨ ∃ x y n, decodeWord s.fetchWord = .drw x y n) := by
      rintro (hc | ⟨x, y, n, hd⟩)
      · exact hcls hc
      · exact hdrw x y n hd
    exact ⟨hfb fun hw => hnone (writer_of_mem_writtenParts hw), hdraw fun hw => hnone (writer_of_mem_writtenParts hw)⟩
  · by_contra hne
    obtain ⟨x, hx | hx⟩ := hmem hne
    · exact hbcd x hx
    · exact hstore x hx
  · obtain hr | ⟨a, ha⟩ := writer_of_mem_writtenParts hw
    · exact hret hr
    · exact hcall a ha
  · rw [eq_of_exec_error h ho herr]
    rfl

end Sys2Proof.Machine
end

section
/-! PROOFS. What an instruction reads of the model's own port: only RND reads its input `rnd` (40_step_cycle.md R70). -/

namespace Sys2Proof.Machine

/-- An instruction other than RND does the same whatever stands in the port, and of the port it writes the report only. -/
theorem exec_writePort {i : Instr} (hi : ∀ x kk, i ≠ .rnd x kk) (s : State) (p : HostPort) :
    ∃ t, exec i s = .next t ∧ exec i (s.writePort p) = .next (t.writePort { p with report := t.port.report }) := by
  cases i with
  | rnd x kk => exact absurd rfl (hi x kk)
  | ret =>
    by_cases hsp : s.sp.val = 0
    · exact ⟨_, exec_ret_empty s hsp, exec_ret_empty _ hsp⟩
    · exact ⟨_, exec_ret_pop s hsp, exec_ret_pop _ hsp⟩
  | call nnn =>
    by_cases hsp : s.sp.val = 16
    · exact ⟨_, exec_call_full s nnn hsp, exec_call_full _ nnn hsp⟩
    · have hlt : s.sp.val < 16 := by omega
      exact ⟨_, exec_call_fields s nnn hlt, exec_call_fields (s.writePort p) nnn hlt⟩
  | ldKey x =>
    cases hk : s.firstKey with
    | none => exact ⟨_, exec_ldKey_blocked s x hk, exec_ldKey_blocked _ x hk⟩
    | some k => exact ⟨_, exec_ldKey_pressed s x k hk, exec_ldKey_pressed _ x k hk⟩
  | ldB x | storeRegs x =>
    refine ⟨_, finish_storeItems s _, (finish_storeItems (s.writePort p) _).trans ?_⟩
    rw [mem_storeItems_congr (s := s) (t := s.writePort p) rfl rfl]
    rfl
  | loadRegs x =>
    refine ⟨_, finish_loadItems s _, (finish_loadItems (s.writePort p) _).trans ?_⟩
    rw [v_loadItems_congr (s := s) (t := s.writePort p) rfl rfl rfl]
    rfl
  | _ => exact ⟨_, rfl, rfl⟩

/-- Settles O49: only the port's input is changed, and an instruction keeps what the port holds beside the report. -/
theorem onlyRndReadsDraw : Obligations.OnlyRndReadsDraw := by
  intro i s r hi
  obtain ⟨t, ht, hu⟩ := exec_writePort hi s { s.port with rnd := r }
  obtain ⟨-, -, -, -, -, -, hport⟩ := parts_of_exec ht
  refine ⟨t, ht, hu.trans ?_⟩
  rw [hport]
  rfl

end Sys2Proof.Machine
end

section
/-! PROOFS. The frame of one instruction as the statements on instructions word it, and how frames compose. -/

namespace Sys2Proof.Machine

/-- What an instruction that stores nothing leaves unchanged: all but its registers and its parts (40_step_cycle.md R75). -/
theorem unchanged_of_exec {i : Instr} {s t : State} (h : exec i s = .next t) (hstored : storedBytes i s = []) :
    Unchanged (destRegs i) (writtenParts i) [] s t := by
  obtain ⟨hindex, hstack, hdt, hst, hfb, hdraw, hport⟩ := parts_of_exec h
  obtain ⟨hkey, -⟩ := keypad_drawFlag_of_exec h
  have hmem : t.mem = s.mem := by rw [mem_of_exec h, hstored]; rfl
  refine ⟨fun _ hr => readReg_of_exec h hr, fun a _ _ => State.memRead_congr hmem a, hindex, hstack, hdt, hst, hfb, hdraw,
    hkey, ?_, ?_, ?_, ?_⟩ <;> rw [hport]

/-- An instruction that stores nothing, by its `pc` and its outcome `Normal` (40_step_cycle.md R73, R75). -/
theorem endsNormally_of_outcome {i : Instr} {s : State} {a : Addr} (hstored : storedBytes i s = [])
    (h : ∃ t, exec i s = .next t ∧ (t.pc, t.port.report) = (a, .step .normal)) :
    ∃ t, exec i s = .next t ∧ Unchanged (destRegs i) (writtenParts i) [] s t ∧ EndsNormallyAt a t := by
  obtain ⟨t, ht, hend⟩ := h
  exact ⟨t, ht, unchanged_of_exec ht hstored, Prod.mk.inj hend⟩

section Frames

variable {regs : List RegNo} {parts : List Part} {stored : List Nat} {s t u : State}

theorem Unchanged.refl : Unchanged regs parts stored s s := by simp [Unchanged]

theorem Unchanged.trans (h : Unchanged regs parts stored s t) (h' : Unchanged regs parts stored t u) :
    Unchanged regs parts stored s u := by
  unfold Unchanged at *
  grind

end Frames

end Sys2Proof.Machine
end

section
/-! PROOFS. Control transfer (41_control_flow.md R80 to R86), and calls nested in calls (R82). -/

namespace Sys2Proof.Machine

/-- The newest entry of a stack with `k + 1` entries stands in slot `k` (10_state.md R16). -/
theorem State.top_eq_getElem {s : State} {k : Nat} (hk : k < 16) (h : s.sp.val = k + 1) : s.top = s.stack[k] := by
  simp [State.top, h]

/-- Settles O16: by the two ways RET ends. -/
theorem retPopsOrReportsUnderflow : Obligations.RetPopsOrReportsUnderflow := by
  refine ⟨decodeWord_encode (i := .ret) rfl, fun s => ?_⟩
  by_cases hsp : s.sp.val = 0
  · have h := exec_ret_empty s hsp
    exact ⟨_, h, unchanged_of_exec h rfl, rfl, fun _ => ⟨rfl, rfl, rfl⟩, fun k _ hk => by omega⟩
  · have h := exec_ret_pop s hsp
    exact ⟨_, h, unchanged_of_exec h rfl, rfl, fun h0 => absurd h0 hsp,
      fun k hk hk' => ⟨by simp [hk'], State.top_eq_getElem hk hk', rfl⟩⟩

/-- Settles O17: a jump writes `pc` only. -/
theorem jpJumps : Obligations.JpJumps := by
  intro nnn s
  exact ⟨decodeWord_encode (i := .jp nnn) rfl, endsNormally_of_outcome rfl (pcAndOutcomeOfEachInstruction (.jp nnn) s)⟩

/-- Settles O18: by the two ways CALL ends. -/
theorem callPushesOrReportsOverflow : Obligations.CallPushesOrReportsOverflow := by
  intro nnn s
  refine ⟨decodeWord_encode (i := .call nnn) rfl, ?_⟩
  by_cases hsp : s.sp.val = 16
  · have h := exec_call_full s nnn hsp
    exact ⟨_, h, unchanged_of_exec h rfl, fun _ => ⟨rfl, rfl, rfl, rfl⟩, fun hlt => by omega⟩
  · have h := exec_call_fields s nnn (by omega)
    exact ⟨_, h, unchanged_of_exec h rfl, fun hfull => absurd hfull hsp, fun _ => ⟨rfl, rfl, rfl, rfl⟩⟩

/-- Settles O19: `pc` and the outcome of each skip, and that it writes neither a register nor a part. -/
theorem skipsOnByte : Obligations.SkipsOnByte := by
  intro x kk s
  exact ⟨decodeWord_encode (i := .seByte x kk) rfl, decodeWord_encode (i := .sneByte x kk) rfl,
    endsNormally_of_outcome rfl (pcAndOutcomeOfEachInstruction (.seByte x kk) s),
    endsNormally_of_outcome rfl (pcAndOutcomeOfEachInstruction (.sneByte x kk) s)⟩

/-- Settles O20: as the skips on a byte; the ignored nibble is packed and read back with the registers. -/
theorem skipsOnRegisters : Obligations.SkipsOnRegisters := by
  intro x y ign s
  exact ⟨decodeWord_encode (i := .seReg x y ign) rfl, decodeWord_encode (i := .sneReg x y ign) rfl,
    endsNormally_of_outcome rfl (pcAndOutcomeOfEachInstruction (.seReg x y ign) s),
    endsNormally_of_outcome rfl (pcAndOutcomeOfEachInstruction (.sneReg x y ign) s)⟩

/-- The first instruction of a sequence, and then the others. -/
theorem execSeq_cons_of_next {i : Instr} {s t : State} (h : exec i s = .next t) (is : List Instr) :
    execSeq (i :: is) s = execSeq is t := by
  simp only [execSeq, h]

/-- One sequence after another. -/
theorem execSeq_append_of_next {is : List Instr} {s t : State} (h : execSeq is s = .next t) (js : List Instr) :
    execSeq (is ++ js) s = execSeq js t := by
  induction is generalizing s with
  | nil => cases h; rfl
  | cons i is ih =>
    obtain ⟨u, hu⟩ := exec_answers_next i s
    rw [execSeq_cons_of_next hu] at h
    rw [List.cons_append, execSeq_cons_of_next hu, ih h]

/-- The same count and the same valid entries on the stack, and nothing else changed but `pc`. -/
def KeepsStack (s t : State) : Prop :=
  t.sp = s.sp ∧ (∀ k, (h : k < s.sp.val) → t.stack[k] = s.stack[k]) ∧ Unchanged [] [.stack] [] s t

/-- A subroutine whose body keeps the stack returns to the instruction after its CALL, and keeps the caller's stack: the
body leaves the pushed address on top and the entries under it alone (41_control_flow.md R82). -/
theorem execSeq_call_body_ret {a : Addr} {body : List Instr} {s : State} (hsp : s.sp.val < 16)
    (hbody : ∀ u : State, u.sp.val = s.sp.val + 1 → ∃ v, execSeq body u = .next v ∧ KeepsStack u v) :
    ∃ t, execSeq (.call a :: (body ++ [.ret])) s = .next t ∧ EndsNormallyAt (s.pc + 2) t ∧ KeepsStack s t := by
  obtain ⟨-, u, hcall, hus, -, hpush⟩ := callPushesOrReportsOverflow a s
  obtain ⟨hustack, husp, -⟩ := hpush hsp
  obtain ⟨v, hrun, hvsp, hvstack, hvu⟩ := hbody u husp
  obtain ⟨t, hret, htv, htstack, -, hpop⟩ := retPopsOrReportsUnderflow.2 v
  obtain ⟨htsp, hend⟩ := hpop s.sp.val hsp (by rw [hvsp, husp])
  have htop : v.stack[s.sp.val] = s.pc + 2 := by
    rw [hvstack _ (by omega)]
    simp [hustack]
  have hold : ∀ k, (h : k < s.sp.val) → t.stack[k] = s.stack[k] := fun k hk => by
    simp only [htstack, hvstack k (by omega), hustack]
    exact Vector.getElem_set_ne _ _ (by omega)
  refine ⟨t, ?_, htop ▸ hend, Fin.ext htsp, hold, (hus.trans hvu).trans htv⟩
  rw [execSeq_cons_of_next hcall, execSeq_append_of_next hrun, execSeq_cons_of_next hret, execSeq]

/-- Calls nested in calls, by induction: the later calls and their returns are the body of the first. -/
theorem execSeq_nested_calls (as : List Addr) (s : State) (hfits : s.sp.val + as.length ≤ 16) :
    ∃ t, execSeq (as.map .call ++ List.replicate as.length .ret) s = .next t ∧
      (as ≠ [] → EndsNormallyAt (s.pc + 2) t) ∧ KeepsStack s t := by
  induction as generalizing s with
  | nil => exact ⟨s, rfl, absurd rfl, rfl, fun _ _ => rfl, Unchanged.refl⟩
  | cons a as ih =>
    rw [List.length_cons] at hfits
    have hbody : ∀ u : State, u.sp.val = s.sp.val + 1 →
        ∃ v, execSeq (as.map .call ++ List.replicate as.length .ret) u = .next v ∧ KeepsStack u v := fun u hu => by
      obtain ⟨v, hrun, -, hkeeps⟩ := ih u (by omega)
      exact ⟨v, hrun, hkeeps⟩
    obtain ⟨t, hrun, hend, hkeeps⟩ := execSeq_call_body_ret (a := a) (by omega) hbody
    refine ⟨t, ?_, fun _ => hend, hkeeps⟩
    rwa [List.length_cons, List.replicate_succ', List.map_cons, List.cons_append, ← List.append_assoc]

/-- Settles O21: there is a first call, and its body is the other calls and their returns. -/
theorem nestedCallsReturn : Obligations.NestedCallsReturn := by
  intro as s hne hfits
  obtain ⟨t, hrun, hend, hkeeps⟩ := execSeq_nested_calls as s hfits
  exact ⟨t, hrun, hend hne, hkeeps⟩

end Sys2Proof.Machine
end

section
/-! PROOFS. Register load, arithmetic, logic, shift and random (42_alu.md). How the two kinds of these instructions end,
said once each: a result in `Vx` alone, or a result in `Vx` and after it a flag in VF. Then the results as numbers mod 256. -/

namespace Sys2Proof.Machine

section Ends

variable {i : Instr} {s : State} {x : RegNo} {b : Byte} {flag : Bool}

/-- An instruction that writes its result to `Vx` and no flag. -/
theorem ends_of_writeReg (h : exec i s = .next (((s.writeReg x b).writePc (s.pc + 2)).report (.step .normal)))
    (hstored : storedBytes i s = []) :
    ∃ t, exec i s = .next t ∧ t.readReg x = b ∧ Unchanged (destRegs i) (writtenParts i) [] s t ∧
      EndsNormallyAt (s.pc + 2) t :=
  ⟨_, h, State.readReg_writeReg_self s x b, unchanged_of_exec h hstored, rfl, rfl⟩

/-- An instruction that writes its result to `Vx` and then the flag to VF, so that the flag wins when `x = F` (R91). -/
theorem ends_of_writeWithFlag
    (h : exec i s = .next (((s.writeWithFlag x b flag).writePc (s.pc + 2)).report (.step .normal)))
    (hstored : storedBytes i s = []) :
    ∃ t, exec i s = .next t ∧ (x ≠ VF → t.readReg x = b) ∧ t.readReg VF = flagByte flag ∧
      Unchanged (destRegs i) (writtenParts i) [] s t ∧ EndsNormallyAt (s.pc + 2) t := by
  have hresult : x ≠ VF → (s.writeWithFlag x b flag).readReg x = b := fun hx => by
    rw [State.readReg_writeWithFlag, if_neg hx, if_pos rfl]
  exact ⟨_, h, hresult, readReg_VF_writeWithFlag s x b flag, unchanged_of_exec h hstored, rfl, rfl⟩

/-- An instruction that writes the difference `a - c` to `Vx` and its "no borrow" to VF (R97, R99). -/
theorem ends_of_subtraction {a c : Byte}
    (h : exec i s = .next (((s.writeWithFlag x (a - c) (noBorrow a c)).writePc (s.pc + 2)).report (.step .normal)))
    (hstored : storedBytes i s = []) :
    ∃ t, exec i s = .next t ∧ (x ≠ VF → (t.readReg x).toNat = (a.toNat + 256 - c.toNat) % 256) ∧
      t.readReg VF = (if a.toNat ≥ c.toNat then 1 else 0) ∧ Unchanged (destRegs i) (writtenParts i) [] s t ∧
      EndsNormallyAt (s.pc + 2) t := by
  obtain ⟨t, ht, hresult, hflag, hrest⟩ := ends_of_writeWithFlag h hstored
  have hsub : (a - c).toNat = (a.toNat + 256 - c.toNat) % 256 := by
    rw [BitVec.toNat_sub]
    omega
  exact ⟨t, ht, fun hx => by rw [hresult hx, hsub], hflag.trans (flagByte_decide _), hrest⟩

end Ends

/-- Settles O22: both write `Vx` alone; the sum of bytes wraps mod 256. -/
theorem loadAndAddByte : Obligations.LoadAndAddByte := by
  intro x kk s
  obtain ⟨t, ht, hsum, hrest⟩ := ends_of_writeReg (exec_addByte s x kk) rfl
  exact ⟨decodeWord_encode (i := .ldByte x kk) rfl, decodeWord_encode (i := .addByte x kk) rfl,
    ends_of_writeReg (exec_ldByte s x kk) rfl, t, ht, by rw [hsum, BitVec.toNat_add], hrest⟩

/-- Settles O23: all four write `Vx` alone. -/
theorem copyAndLogic : Obligations.CopyAndLogic := by
  intro x y s
  exact ⟨decodeWord_encode (i := .ldReg x y) rfl, decodeWord_encode (i := .or x y) rfl,
    decodeWord_encode (i := .and x y) rfl, decodeWord_encode (i := .xor x y) rfl,
    ends_of_writeReg (exec_ldReg s x y) rfl, ends_of_writeReg (exec_or s x y) rfl,
    ends_of_writeReg (exec_and s x y) rfl, ends_of_writeReg (exec_xor s x y) rfl⟩

/-- Settles O24: the sum of bytes wraps mod 256, and the flag is the carry of the old values. -/
theorem addSetsCarry : Obligations.AddSetsCarry := by
  intro x y s
  obtain ⟨t, ht, hsum, hflag, hrest⟩ := ends_of_writeWithFlag (exec_addReg s x y) rfl
  exact ⟨decodeWord_encode (i := .addReg x y) rfl, t, ht, fun hx => by rw [hsum hx, BitVec.toNat_add],
    hflag.trans (flagByte_decide _), hrest⟩

/-- Settles O25: SUBN is SUB with the operands exchanged. -/
theorem subtractionsSetNoBorrow : Obligations.SubtractionsSetNoBorrow := by
  intro x y s
  exact ⟨decodeWord_encode (i := .sub x y) rfl, decodeWord_encode (i := .subn x y) rfl,
    ends_of_subtraction (exec_sub s x y) rfl, ends_of_subtraction (exec_subn s x y) rfl⟩

/-- Settles O26: a shift by one place halves or doubles, and the flag is the bit of the old value that falls out. -/
theorem shiftsSetShiftedOutBit : Obligations.ShiftsSetShiftedOutBit := by
  intro x y s
  refine ⟨decodeWord_encode (i := .shr x y) rfl, decodeWord_encode (i := .shl x y) rfl, ?_, ?_⟩
  · obtain ⟨t, ht, hhalf, hflag, hrest⟩ := ends_of_writeWithFlag (exec_shr s x y) rfl
    exact ⟨t, ht, fun hx => by rw [hhalf hx, BitVec.toNat_ushiftRight, Nat.shiftRight_one],
      by rw [hflag, toNat_flagByte_shiftedOutRight], hrest⟩
  · obtain ⟨t, ht, hdouble, hflag, hrest⟩ := ends_of_writeWithFlag (exec_shl s x y) rfl
    exact ⟨t, ht, fun hx => by rw [hdouble hx, BitVec.toNat_shiftLeft, Nat.shiftLeft_eq, Nat.pow_one],
      by rw [hflag, toNat_flagByte_shiftedOutLeft], hrest⟩

/-- Settles O27: the mask clears every bit that is 0 in `kk`, whatever was drawn. -/
theorem rndMasksDraw : Obligations.RndMasksDraw := by
  intro x kk rnd s
  obtain ⟨t, ht, hmasked, hrest⟩ := ends_of_writeReg (exec_rnd { s with port := { s.port with rnd := rnd } } x kk) rfl
  exact ⟨decodeWord_encode (i := .rnd x kk) rfl, t, ht, hmasked,
    fun b hb => by rw [hmasked, BitVec.getLsbD_and, hb, Bool.and_false], hrest⟩

end Sys2Proof.Machine
end

section
/-! PROOFS. The index register and memory instructions (43_index_memory.md R110 to R115). How the two that store end, said
once: their bytes stand as items from `I` on, and no other byte changes. -/

namespace Sys2Proof.Machine

/-- An address is reduced mod 4096 before a read, so it may be reduced beforehand (20_memory.md R33). -/
theorem State.memRead_mod (s : State) (a : Nat) : s.memRead (a % memSize) = s.memRead a := by
  rw [State.memRead, Nat.mod_mod, State.memRead]

section Ends

variable {i : Instr} {s : State}

/-- An instruction that writes `I` alone. -/
theorem ends_of_writeIndex {w : Word}
    (h : exec i s = .next (((s.writeIndex w).writePc (s.pc + 2)).report (.step .normal))) (hstored : storedBytes i s = []) :
    ∃ t, exec i s = .next t ∧ t.i = w ∧ Unchanged (destRegs i) (writtenParts i) [] s t ∧ EndsNormallyAt (s.pc + 2) t :=
  ⟨_, h, rfl, unchanged_of_exec h hstored, rfl, rfl⟩

/-- After an instruction, item `k` is the `k`-th of the bytes it stores (20_memory.md R36, R37). -/
theorem memRead_item_of_exec {t : State} (hs : s.Inv) (h : exec i s = .next t) (hfits : (storedBytes i s).length ≤ memSize)
    {k : Nat} (hk : k < (storedBytes i s).length) : t.memRead (s.itemAddr k) = (storedBytes i s)[k] := by
  rw [State.itemAddr, State.memRead_mod, State.memRead_congr (mem_of_exec h)]
  exact State.memRead_storeItems_inside s hs _ hfits k hk

/-- An instruction leaves every byte that is none of its items unchanged. -/
theorem memRead_of_exec_outside {t : State} (hs : s.Inv) (h : exec i s = .next t) {a : Nat} (ha : a < memSize)
    (hout : a ∉ (List.range (storedBytes i s).length).map s.itemAddr) : t.memRead a = s.memRead a := by
  rw [State.memRead_congr (mem_of_exec h)]
  refine State.memRead_storeItems_outside s hs _ a fun k hk hitem => hout ?_
  rw [← Nat.mod_eq_of_lt ha, hitem]
  exact List.mem_map_of_mem (List.mem_range.2 hk)

/-- What an instruction leaves unchanged when it may store: all but its registers, its parts and its items. -/
theorem unchanged_of_exec_stores {t : State} (hs : s.Inv) (h : exec i s = .next t) :
    Unchanged (destRegs i) (writtenParts i) ((List.range (storedBytes i s).length).map s.itemAddr) s t := by
  obtain ⟨hindex, hstack, hdt, hst, hfb, hdraw, hport⟩ := parts_of_exec h
  obtain ⟨hkey, -⟩ := keypad_drawFlag_of_exec h
  refine ⟨fun _ hr => readReg_of_exec h hr, fun a ha hout => memRead_of_exec_outside hs h ha hout, hindex, hstack, hdt, hst,
    hfb, hdraw, hkey, ?_, ?_, ?_, ?_⟩ <;> rw [hport]

end Ends

/-- The address of a glyph does not wrap: at most `0x050 + 5 * 255` (R112). -/
theorem toNat_glyphAddr (b : Byte) : (glyphAddr b).toNat = 0x050 + 5 * b.toNat := by
  have := b.isLt
  exact Nat.mod_eq_of_lt (by simp only [fontBase]; omega)

/-- Settles O30: the bytes stored are V0 to Vx, one an item. -/
theorem storeRegistersToMemory : Obligations.StoreRegistersToMemory := by
  intro x s hs
  obtain ⟨t, h, hend⟩ := pcAndOutcomeOfEachInstruction (.storeRegs x) s
  have hlen : (storedBytes (.storeRegs x) s).length = x.toNat + 1 := by simp [storedBytes]
  have hitems : ∀ r : RegNo, r.toNat ≤ x.toNat → t.memRead (s.itemAddr r.toNat) = s.readReg r := fun r hr => by
    rw [State.itemAddr, State.memRead_mod, memRead_of_exec_storeRegs hs h hr, BitVec.ofNat_toNat, BitVec.setWidth_eq]
  have hframe := unchanged_of_exec_stores hs h
  rw [hlen] at hframe
  exact ⟨decodeWord_encode (i := .storeRegs x) rfl, t, h, hitems, fun _ => rfl, hframe, Prod.mk.inj hend⟩

/-- Settles O31: the registers loaded are those numbered up to `x`, each from its own item. -/
theorem loadRegistersFromMemory : Obligations.LoadRegistersFromMemory := by
  intro x s
  have h := exec_loadRegs s x
  have hloaded : ∀ r : RegNo, r.toNat ≤ x.toNat →
      (s.loadItems (regsUpTo x)).readReg r = s.memRead ((s.i.toNat + r.toNat) % memSize) := fun r hr => by
    rw [State.readReg_loadItems, if_pos ((mem_regsUpTo x r).2 hr), State.memRead_mod]
  have hkept : ∀ r : RegNo, x.toNat < r.toNat → (s.loadItems (regsUpTo x)).readReg r = s.readReg r := fun r hr => by
    rw [State.readReg_loadItems, if_neg (mt (mem_regsUpTo x r).1 hr.not_ge)]
  exact ⟨decodeWord_encode (i := .loadRegs x) rfl, _, h, hloaded, hkept, unchanged_of_exec h rfl, rfl, rfl⟩

/-- Settles O28: all three write `I` alone; a 12-bit address and a glyph's address fit 16 bits, and the sum wraps there. -/
theorem indexLoads : Obligations.IndexLoads := by
  intro nnn x s
  obtain ⟨t, ht, haddr, htrest⟩ := ends_of_writeIndex (exec_ldI s nnn) rfl
  obtain ⟨u, hu, hsum, hurest⟩ := ends_of_writeIndex (exec_addI s x) rfl
  obtain ⟨v, hv, hglyph, hvrest⟩ := ends_of_writeIndex (exec_ldF s x) rfl
  have haddr' : t.i.toNat = nnn.toNat := by rw [haddr, BitVec.toNat_setWidth_of_le (by decide)]
  have hsum' : u.i.toNat = (s.i.toNat + (s.readReg x).toNat) % 65536 := by
    rw [hsum, BitVec.toNat_add, BitVec.toNat_setWidth_of_le (by decide)]
  have hglyph' : v.i.toNat = 0x050 + 5 * (s.readReg x).toNat := by rw [hglyph, toNat_glyphAddr]
  exact ⟨decodeWord_encode (i := .ldI nnn) rfl, decodeWord_encode (i := .addI x) rfl, decodeWord_encode (i := .ldF x) rfl,
    ⟨t, ht, haddr', htrest⟩, ⟨u, hu, hsum', hurest⟩, ⟨v, hv, hglyph', hvrest⟩⟩

/-- Settles O29: the three bytes stored are the digits, and each fits a byte. -/
theorem bcdStoresDigits : Obligations.BcdStoresDigits := by
  intro x s hs
  obtain ⟨t, h, hend⟩ := pcAndOutcomeOfEachInstruction (.ldB x) s
  have hlen : (storedBytes (.ldB x) s).length = 3 := rfl
  have hitem {k : Nat} (hk : k < 3) := memRead_item_of_exec hs h (hlen.trans_le (by decide)) (hk.trans_eq hlen.symm)
  have hdigit {n : Nat} (hn : n < 256) : (BitVec.ofNat 8 n).toNat = n := Nat.mod_eq_of_lt hn
  have hbyte := (s.readReg x).isLt
  refine ⟨decodeWord_encode (i := .ldB x) rfl, t, h, ?_, ?_, ?_, fun _ => rfl, unchanged_of_exec_stores hs h,
    Prod.mk.inj hend⟩
  · rw [hitem (k := 0) (by decide)]
    exact hdigit (by omega)
  · rw [hitem (k := 1) (by decide)]
    exact hdigit (by omega)
  · rw [hitem (k := 2) (by decide)]
    exact hdigit (by omega)

end Sys2Proof.Machine
end

section
/-! PROOFS. The display instructions (44_display.md R120 to R122). What DRW does to a pixel and to VF is said once, in the
words of R121; that a second DRW undoes it follows from these and from the sprite's selecting the same pixels. -/

namespace Sys2Proof.Machine

/-- Settles O33: every pixel of the screen CLS writes is 0. -/
theorem clsClearsScreen : Obligations.ClsClearsScreen := by
  refine ⟨decodeWord_encode (i := .cls) rfl, fun s => ?_⟩
  have h := exec_cls s
  exact ⟨_, h, fun k hk => Vector.getElem_replicate hk, rfl, unchanged_of_exec h rfl, rfl, rfl⟩

section Draws

variable {s t : State} {x y : RegNo} {n : Nibble}

/-- DRW toggles a pixel if and only if the sprite selects it (44_display.md R121). -/
theorem pixel_of_exec_drw (h : exec (.drw x y n) s = .next t) {k : Nat} (hk : k < 2048) :
    (SpriteSelects s x y n k → t.fb[k] = !s.fb[k]) ∧ (¬ SpriteSelects s x y n k → t.fb[k] = s.fb[k]) := by
  have hpix : t.fb[k] = (s.fb[k] ^^ decide (⟨k, hk⟩ ∈ s.drawTargets x y n)) := by
    cases h
    exact (xorPixels_spec s.fb _ (nodup_drawTargets s x y n)).1 ⟨k, hk⟩
  have hmem := mem_drawTargets s x y n ⟨k, hk⟩
  refine ⟨fun hsel => ?_, fun hsel => ?_⟩
  · rw [hpix, decide_eq_true (hmem.2 hsel), Bool.xor_true]
  · rw [hpix, decide_eq_false (mt hmem.1 hsel), Bool.xor_false]

/-- DRW leaves in VF a flag that says whether a selected pixel was 1 (44_display.md R121, corner case 4). -/
theorem readReg_VF_of_exec_drw (h : exec (.drw x y n) s = .next t) :
    ∃ hit : Bool, t.readReg VF = flagByte hit ∧
      (hit = true ↔ ∃ k, ∃ hk : k < 2048, SpriteSelects s x y n k ∧ s.fb[k] = true) := by
  rw [exec_drw] at h
  cases h
  refine ⟨_, State.readReg_writeReg_self _ VF _, ?_⟩
  rw [(xorPixels_spec s.fb _ (nodup_drawTargets s x y n)).2, Fin.exists_iff]
  simp only [mem_drawTargets]

/-- DRW leaves 1 in VF exactly when a selected pixel was 1 (44_display.md R121, corner case 4). -/
theorem readReg_VF_eq_one_of_exec_drw (h : exec (.drw x y n) s = .next t) :
    t.readReg VF = 1 ↔ ∃ k, ∃ hk : k < 2048, SpriteSelects s x y n k ∧ s.fb[k] = true := by
  obtain ⟨hit, hflag, hhit⟩ := readReg_VF_of_exec_drw h
  rw [hflag, flagByte_eq_one, hhit]

/-- DRW leaves 0 in VF when every selected pixel was 0 (44_display.md R121, corner case 4). -/
theorem readReg_VF_eq_zero_of_exec_drw (h : exec (.drw x y n) s = .next t)
    (hclear : ∀ k, (hk : k < 2048) → SpriteSelects s x y n k → s.fb[k] = false) : t.readReg VF = 0 := by
  obtain ⟨hit, hflag, hhit⟩ := readReg_VF_of_exec_drw h
  have hmiss : hit = false := by
    rw [← Bool.not_eq_true, hhit]
    rintro ⟨k, hk, hsel, hset⟩
    exact absurd hset (by rw [hclear k hk hsel]; decide)
  rw [hflag, hmiss]
  rfl

end Draws

/-- Settles O34: pixel by pixel, and VF by whether a selected pixel was 1. -/
theorem drwXorsSprite : Obligations.DrwXorsSprite := by
  intro x y n s
  have h := exec_drw s x y n
  exact ⟨decodeWord_encode (i := .drw x y n) rfl, _, h, fun k hk => pixel_of_exec_drw h hk,
    (readReg_VF_eq_one_of_exec_drw h).2, readReg_VF_eq_zero_of_exec_drw h, rfl, unchanged_of_exec h rfl, rfl, rfl⟩

/-- The pixels a sprite selects depend on its start position, its address and its bytes alone (44_display.md R121). -/
theorem spriteSelects_congr {s u : State} {x y x' y' : RegNo} {n : Nibble} (hi : u.i = s.i)
    (hx : (u.readReg x').toNat % 64 = (s.readReg x).toNat % 64)
    (hy : (u.readReg y').toNat % 32 = (s.readReg y).toNat % 32)
    (hrow : ∀ dy, dy < n.toNat → u.memRead (s.i.toNat + dy) = s.memRead (s.i.toNat + dy)) (k : Nat) :
    SpriteSelects u x' y' n k ↔ SpriteSelects s x y n k := by
  rw [SpriteSelects, SpriteSelects, hi, hx, hy]
  refine exists₂_congr fun dy dx => and_congr_right fun hdy => ?_
  rw [hrow dy hdy]

/-- Settles O35: both sprites select the same pixels, so each is toggled twice; the second DRW meets a selected pixel as the
first left it, toggled. -/
theorem drwTwiceRestoresScreen : Obligations.DrwTwiceRestoresScreen := by
  intro x y x' y' n s t u v hst huv hfb hi hx hy hrow
  have hsame := spriteSelects_congr hi hx hy hrow
  refine ⟨Vector.ext fun k hk => ?_, readReg_VF_eq_one_of_exec_drw hst, (readReg_VF_eq_one_of_exec_drw huv).trans ?_⟩
  · obtain ⟨htoggled, hkept⟩ := pixel_of_exec_drw hst hk
    obtain ⟨htoggled', hkept'⟩ := pixel_of_exec_drw huv hk
    by_cases hsel : SpriteSelects s x y n k
    · rw [htoggled' ((hsame k).2 hsel), hfb, htoggled hsel, Bool.not_not]
    · rw [hkept' (mt (hsame k).1 hsel), hfb, hkept hsel]
  · refine exists₂_congr fun k hk => ?_
    rw [hsame k, hfb]
    refine and_congr_right fun hsel => ?_
    rw [(pixel_of_exec_drw hst hk).1 hsel, Bool.not_eq_true']

end Sys2Proof.Machine
end

section
/-! PROOFS. The keypad instructions (45_keypad.md R130 to R132). A step at a key-wait with no key pressed changes the model's
own port only, and the wait does not read the port: so it goes on for as long as only the executor steps. -/

namespace Sys2Proof.Machine

/-- The key SKP and SKNP test is numbered by the value mod 16 (R130, R131). -/
theorem keyOf_eq_ofNat (b : Byte) : keyOf b = BitVec.ofNat 4 (b.toNat % 16) :=
  BitVec.eq_of_toNat_eq (by simp [keyOf])

/-- Settles O36: `pc` and the outcome of each skip, and that it writes neither a register nor a part. -/
theorem skipsOnKey : Obligations.SkipsOnKey := by
  intro x s
  rw [← keyOf_eq_ofNat]
  exact ⟨decodeWord_encode (i := .skp x) rfl, decodeWord_encode (i := .sknp x) rfl,
    endsNormally_of_outcome rfl ⟨_, exec_skp s x, rfl⟩, endsNormally_of_outcome rfl ⟨_, exec_sknp s x, by simp⟩⟩

/-- Settles O37: by the first pressed key; its number fits a byte. -/
theorem keyWaitTakesLeastKey : Obligations.KeyWaitTakesLeastKey := by
  intro x s
  refine ⟨decodeWord_encode (i := .ldKey x) rfl, fun hnone => ?_, fun k hk hleast => ?_⟩
  · exact ⟨_, exec_ldKey_blocked s x ((firstKey_eq_none s).2 hnone), rfl⟩
  · have hfirst := (firstKey_eq_some s k).2 ⟨hk, hleast⟩
    obtain ⟨t, ht, hvalue, hrest⟩ := ends_of_writeReg (exec_ldKey_pressed s x k hfirst) rfl
    exact ⟨t, ht, by rw [hvalue, BitVec.toNat_setWidth_of_le (by decide)], hrest⟩

/-- The word at `pc` is LD Vx,K and no key is pressed (R132). -/
def State.WaitsForKey (s : State) (x : RegNo) : Prop := (∀ k, s.readKey k = false) ∧ decodeWord s.fetchWord = .ldKey x

section Waits

variable {s : State} {x : RegNo}

/-- A wait does not read the model's own port, so a write to the port does not end it. -/
theorem State.WaitsForKey.writePort (h : s.WaitsForKey x) (p : HostPort) : (s.writePort p).WaitsForKey x := h

/-- The instruction of a wait changes the report only, whatever the port. -/
theorem State.WaitsForKey.exec_eq (h : s.WaitsForKey x) (p : HostPort) :
    exec (decodeWord s.fetchWord) (s.writePort p) = .next (s.writePort { p with report := .step .blockedOnKey }) := by
  obtain ⟨hnone, hword⟩ := h
  rw [hword]
  exact exec_ldKey_blocked _ x ((firstKey_eq_none _).2 hnone)

/-- One step of the executor in a wait takes its own request, if there is one, off the list and reports `BlockedOnKey`. -/
theorem State.WaitsForKey.step_eq (h : s.WaitsForKey x) (hs : StepsExecutor s) :
    ∃ p, step s = .next (s.writePort p) ∧ p.requests = s.port.requests.drop 1 ∧ p.report = .step .blockedOnKey := by
  obtain hr | ⟨rnd, rs, hr⟩ := hs
  · exact ⟨_, (step_of_no_request s hr).trans (h.exec_eq _), by rw [hr]; exact hr, rfl⟩
  · exact ⟨_, (step_of_request s (.step rnd) rs hr).trans (h.exec_eq _), by rw [hr]; rfl, rfl⟩

/-- Transitions of a wait, of which none serves a request other than `step`, change the port only: they take as many
requests off the list, as far as it goes, and the last one reports `BlockedOnKey`. -/
theorem State.WaitsForKey.run_eq (n : Nat) (h : s.WaitsForKey x)
    (hsteps : ∀ r ∈ s.port.requests.take n, ∃ rnd, r = .step rnd) :
    ∃ p, Host.Core.run Sys2Proof.core n s = .next (s.writePort p) ∧ p.requests = s.port.requests.drop n ∧
      p.report = if n = 0 then s.port.report else .step .blockedOnKey := by
  induction n generalizing s with
  | zero => exact ⟨s.port, rfl, rfl, rfl⟩
  | succ n ih =>
    have hs : StepsExecutor s := (stepsExecutor_or_request s).resolve_right fun ⟨r, rs, hne, hr⟩ => by
      obtain ⟨rnd, rfl⟩ := hsteps r (by simp [hr])
      exact hne rnd rfl
    obtain ⟨p, hstep, hreqs, hreport⟩ := h.step_eq hs
    have hrest : ∀ r ∈ p.requests.take n, ∃ rnd, r = .step rnd := fun r hr => by
      rw [hreqs, List.take_drop, Nat.add_comm] at hr
      exact hsteps r (List.mem_of_mem_drop hr)
    obtain ⟨q, hrun, hreqs', hreport'⟩ := ih (h.writePort p) hrest
    refine ⟨q, (run_succ_of_next hstep n).trans hrun, ?_, ?_⟩
    · rw [hreqs', State.writePort_port, hreqs, List.drop_drop, Nat.add_comm]
    · rw [hreport', State.writePort_port, hreport, ite_self, if_neg n.succ_ne_zero]

end Waits

/-- Settles O38: both clauses are runs of a wait, the first through the pending steps, the second through an empty list. -/
theorem keyWaitRepeats : Obligations.KeyWaitRepeats := by
  refine ⟨fun rnds rs x s hr hnone hword => ?_, fun n x s hr hnone hword => ?_⟩
  · have hwait : s.WaitsForKey x := ⟨hnone, hword⟩
    have hlen := List.length_map (as := rnds) Request.step
    have hsteps : ∀ r ∈ s.port.requests.take rnds.length, ∃ rnd, r = .step rnd := by
      rw [hr, List.take_left' hlen]
      simp
    obtain ⟨p, hrun, hreqs, hreport⟩ := hwait.run_eq rnds.length hsteps
    refine ⟨_, hrun, rfl, ?_, fun hne => hreport.trans (if_neg (mt List.length_eq_zero_iff.1 hne))⟩
    rw [State.writePort_port, hreqs, hr, List.drop_left' hlen]
  · have hwait : s.WaitsForKey x := ⟨hnone, hword⟩
    obtain ⟨p, hrun, hreqs, hreport⟩ := hwait.run_eq (n + 1) (by simp [hr])
    refine ⟨_, hrun, rfl, hreport.trans (if_neg n.succ_ne_zero), ?_⟩
    rw [State.writePort_port, hreqs, hr, List.drop_nil]

end Sys2Proof.Machine
end

section
/-! PROOFS. The timer transfers (46_timers.md R140 to R142). Each writes one register or one timer and ends with `Normal`; a
beep is no outcome of an instruction. -/

namespace Sys2Proof.Machine

/-- Settles O39: LD Vx,DT writes a register only; LD DT,Vx and LD ST,Vx write one timer each, their one part. -/
theorem timerTransfers : Obligations.TimerTransfers := by
  intro x s
  have hdelay := exec_ldDt s x
  have hsound := exec_ldSt s x
  exact ⟨decodeWord_encode (i := .ldFromDt x) rfl, decodeWord_encode (i := .ldDt x) rfl, decodeWord_encode (i := .ldSt x) rfl,
    ends_of_writeReg (exec_ldFromDt s x) rfl,
    ⟨_, hdelay, rfl, unchanged_of_exec hdelay rfl, rfl, rfl⟩,
    ⟨_, hsound, rfl, unchanged_of_exec hsound rfl, rfl, rfl⟩⟩

end Sys2Proof.Machine
end

section
/-! PROOFS. Unknown words and the error outcomes (47_unknown.md R150 to R152, 60_exceptions.md R161). What an instruction of
the Unknown class does is said once; the word it reports is its own, since the decoder drops no bit. -/

namespace Sys2Proof.Machine

/-- An instruction of the Unknown class reports its own word and is passed (R150 to R152). -/
theorem exec_of_isUnknown {i : Instr} (h : i.isUnknown = true) (s : State) :
    exec i s = .next ((s.writePc (s.pc + 2)).report (.step (.unknownOpcode (encode i)))) := by
  cases i with
  | sysAddr nnn => exact exec_sysAddr s nnn
  | jpV0 nnn => exact exec_jpV0 s nnn
  | unknown w => exact exec_unknown s w
  | _ => cases h

/-- An instruction of the Unknown class changes nothing but `pc`. -/
theorem unchanged_of_isUnknown {i : Instr} (h : i.isUnknown = true) {s t : State} (ht : exec i s = .next t) :
    Unchanged [] [] [] s t := by
  cases i with
  | sysAddr _ | jpV0 _ | unknown _ => exact unchanged_of_exec ht rfl
  | _ => cases h

/-- How an instruction of the Unknown class ends, as the statement on it words it. -/
theorem ends_of_isUnknown {i : Instr} (h : i.isUnknown = true) (s : State) :
    ∃ t, exec i s = .next t ∧ Unchanged [] [] [] s t ∧ t.pc = s.pc + 2 ∧
      t.port.report = .step (.unknownOpcode (encode i)) :=
  have ht := exec_of_isUnknown h s
  ⟨_, ht, unchanged_of_isUnknown h ht, rfl, rfl⟩

/-- A step of the executor executes the word at `pc`, with that word latched as its output `outcome_word` (40_step_cycle.md
R70, R74). -/
theorem step_latches_fetchWord {s : State} (h : StepsExecutor s) :
    ∃ p, step s = exec (decodeWord s.fetchWord) (s.writePort p) ∧ p.outcomeWord = s.fetchWord := by
  obtain ⟨hfree, hhost⟩ := stepRunsDecodedInstruction s s.fetchWord (fetchWord_eq rfl rfl)
  obtain hr | ⟨rnd, rs, hr⟩ := h
  · exact ⟨_, hfree hr, rfl⟩
  · exact ⟨_, hhost rnd rs hr, rfl⟩

/-- Settles O42: the decoder by the encoder's inverse, the three instructions by their class, and a step by the word it
decodes, which is the word its instruction encodes. -/
theorem unknownWordsAreReported : Obligations.UnknownWordsAreReported := by
  intro w nnn s
  refine ⟨decodeWord_unassigned, decodeWord_sysAddr, decodeWord_encode (i := .jpV0 nnn) rfl,
    ends_of_isUnknown (i := .unknown w) rfl s, ends_of_isUnknown (i := .sysAddr nnn) rfl s,
    ends_of_isUnknown (i := .jpV0 nnn) rfl s, fun hs hunknown => ?_⟩
  obtain ⟨p, hstep, hword⟩ := step_latches_fetchWord hs
  obtain ⟨henc, -⟩ := encodes_decodeWord s.fetchWord
  rw [exec_of_isUnknown hunknown, henc] at hstep
  exact ⟨_, hstep, rfl, rfl, hword⟩

/-- No instruction reads the report of an earlier transition (R161). -/
theorem exec_report (i : Instr) (s : State) (r : Report) : exec i (s.report r) = exec i s := by
  by_cases hi : ∀ x kk, i ≠ .rnd x kk
  · obtain ⟨t, ht, hu⟩ := exec_writePort hi s { s.port with report := r }
    obtain ⟨-, -, -, -, -, -, hport⟩ := parts_of_exec ht
    have hsame : t.writePort { s.port with report := t.port.report } = t := by rw [← hport]; rfl
    exact hu.trans ((congrArg _ hsame).trans ht.symm)
  · obtain ⟨x, kk, rfl⟩ : ∃ x kk, i = .rnd x kk := by simpa using hi
    rw [exec_rnd, exec_rnd]
    rfl

/-- Settles O14: each error case by its own equation, then the frame of an error outcome, then the report as input. -/
theorem errorsChangeOnlyPc : Obligations.ErrorsChangeOnlyPc := by
  refine ⟨fun i s h => ?_, fun i s t o h ho herr => eq_of_exec_error h ho herr, exec_report⟩
  obtain ⟨rfl, hsp⟩ | ⟨nnn, rfl, hsp⟩ | hunknown := h
  · exact ⟨_, _, exec_ret_empty s hsp, rfl, rfl⟩
  · exact ⟨_, _, exec_call_full s nnn hsp, rfl, rfl⟩
  · exact ⟨_, _, exec_of_isUnknown hunknown s, rfl, rfl⟩

end Sys2Proof.Machine
end

section
/-! PROOFS. The countdown of the timers (60_exceptions.md R170, R171): one tick, and then any number of them. -/

namespace Sys2Proof.Machine

/-- A timer one tick later, as a number: it does not go below 0. -/
theorem toNat_countDown (b : Byte) : (countDown b).toNat = b.toNat - 1 := by
  unfold countDown
  split
  · next h => rw [h]; rfl
  · bv_omega

/-- Settles O40: both timers count down, and the beep is the test whether ST was 1. -/
theorem tickCountsDown : Obligations.TickCountsDown := by
  intro s rs hr
  exact ⟨_, step_of_request s .tick rs hr, toNat_countDown s.dt, toNat_countDown s.st, by simp [tickTimers],
    by simp [tickTimers], rfl⟩

/-- Settles O41: by induction on the number of ticks, each one the step of O40. -/
theorem timersReachZeroAfterTheirValue : Obligations.TimersReachZeroAfterTheirValue := by
  intro n
  induction n with
  | zero => exact fun s rs hr => ⟨s, rfl, rfl, rfl, rfl, hr⟩
  | succ n ih =>
    intro s rs hr
    obtain ⟨t, hstep, hdt, hst, -, -, ht⟩ := tickCountsDown s (List.replicate n Request.tick ++ rs) hr
    have hreqs : t.port.requests = List.replicate n .tick ++ rs := by rw [ht]
    obtain ⟨u, hrun, hdt', hst', hu, hreqs'⟩ := ih t rs hreqs
    refine ⟨u, (run_succ_of_next hstep n).trans hrun, by omega, by omega, ?_, hreqs'⟩
    rw [hu, ht]

end Sys2Proof.Machine
end

section
/-! PROOFS. The host's other operations (60_exceptions.md R176 to R178; 70_reset_and_hazards.md R190, R193). -/

namespace Sys2Proof.Machine

/-- Settles O45: the written key by the law of a key write; `draw_clear` by definition. -/
theorem keyWriteAndDrawClear : Obligations.KeyWriteAndDrawClear := by
  refine fun s rs => ⟨fun k b hr => ?_, fun hr => ⟨_, step_of_request s .drawClear rs hr, rfl⟩⟩
  have hkey (j : RegNo) : (keyWrite k b (s.withRequests rs)).readKey j = if j = k then b else s.readKey j :=
    State.readKey_writeKey _ k j b
  exact ⟨_, step_of_request s (.keyWrite k b) rs hr, by rw [hkey, if_pos rfl], fun j hj => by rw [hkey, if_neg hj], rfl⟩

/-- Settles O46: a read writes the report, after its request is taken off the list. -/
theorem hostReadsChangeNothing : Obligations.HostReadsChangeNothing := fun s rs =>
  ⟨fun hr => ⟨_, step_of_request s .readFramebuffer rs hr, rfl⟩, fun hr => ⟨_, step_of_request s .readDrawFlag rs hr, rfl⟩⟩

/-- Settles O44: a reset keeps the port but for its report, and the port is no field of R23. -/
theorem resetPutsEveryField : Obligations.ResetPutsEveryField := by
  intro s rs hr
  have hfields : IsResetState (resetMachine (s.withRequests rs)) := resetState
  exact ⟨_, step_of_request s .reset rs hr, hfields, rfl, rfl⟩

section Load

variable (s : State) {bytes : List Byte}

/-- A program too long is refused whole (R193). -/
theorem loadProgram_of_gt (h : progMax < bytes.length) : loadProgram bytes s = s.report (.load .programTooLarge) :=
  if_pos h

/-- A program that fits is copied from 0x200 on (R193). -/
theorem loadProgram_of_le (h : bytes.length ≤ progMax) :
    loadProgram bytes s = (s.memWriteList progBase bytes).report (.load .ok) :=
  if_neg (Nat.not_lt.2 h)

/-- A load takes nothing off the host's list. -/
theorem requests_loadProgram : (loadProgram bytes s).port.requests = s.port.requests := by
  obtain h | h := Nat.lt_or_ge progMax bytes.length
  · rw [loadProgram_of_gt s h, State.report_port]
  · rw [loadProgram_of_le s h, State.report_port, State.memWriteList_port]

variable {s} (hs : s.Inv) (h : bytes.length ≤ progMax)

include hs h

/-- Each byte of a loaded program stands at its address. -/
theorem memRead_loadProgram_inside {k : Nat} (hk : k < bytes.length) :
    (loadProgram bytes s).memRead (progBase + k) = bytes[k] := by
  rw [loadProgram_of_le s h, State.memRead_report]
  exact State.memRead_memWriteList_inside hs progBase bytes (h.trans (Nat.sub_le ..)) k hk

/-- A load leaves every cell outside the program alone: a program that fits does not wrap past the top of memory. -/
theorem memRead_loadProgram_outside {a : Nat} (ha : a < memSize) (hout : a < progBase ∨ progBase + bytes.length ≤ a) :
    (loadProgram bytes s).memRead a = s.memRead a := by
  rw [loadProgram_of_le s h, State.memRead_report]
  refine State.memRead_memWriteList_outside hs progBase bytes a fun k hk => ?_
  simp only [progMax, memSize, progBase] at h ha hout ⊢
  omega

end Load

/-- Settles O43: the frame of a load, the refusal, and the copied cells one by one. -/
theorem loadCopiesProgram : Obligations.LoadCopiesProgram := by
  intro s bytes rs hs hr
  have hs' : (s.withRequests rs).Inv := hs
  refine ⟨_, step_of_request s (.load bytes) rs hr, ?_, requests_loadProgram _, fun hlong => ?_, fun hfit => ?_⟩
  · exact loadProgram_eq bytes (s.withRequests rs)
  · rw [loadProgram_of_gt _ hlong]
    exact ⟨rfl, rfl⟩
  · refine ⟨?_, fun k hk => memRead_loadProgram_inside hs' hfit hk,
      fun a ha hout => memRead_loadProgram_outside hs' hfit ha hout⟩
    rw [loadProgram_of_le _ hfit]
    rfl

end Sys2Proof.Machine
end
